-- ==== Sys2Proof/Word.lean ====
section
/-!
DEFINITION. The word and byte types of the Sentinel Digest Engine.
Words are 64 bits (rules R21, R101), bytes 8 bits (rule R52); a byte string is a list of bytes,
index 0 first (rule R9). Word arithmetic is in Machine/Sha512.lean.
-/

namespace Sys2Proof

/-- A 64-bit word: a host register (rule R21), a length (rule R5) or a word of the hash core
(rule R101). -/
abbrev Word := BitVec 64

/-- A byte: 8 bits (rules R9, R52). -/
abbrev Byte := BitVec 8

/-- A byte string: the list's element `i` is the byte at index `i` (rule R9). -/
abbrev Bytes := List Byte

end Sys2Proof
end

