-- ==== Sys2Proof/Syntax.lean ====
section
/-!
DEFINITION. The command set: one constructor per row of spec/opcode_table.json (rule R71).
A command word carries no operands (rule R73), so no constructor has an argument.
-/

namespace Sys2Proof

/-- The commands of the engine (rule R71). -/
inductive Instr where
  /-- `HASH`, the source's `hash(secret)` (rule R134). -/
  | hash
  /-- `VERIFY`, the source's `verify(secret, storedDigest)` (rule R153). -/
  | verify
  /-- `CMPEQ`, the source's `slowEquals(a, b)` (rule R164). -/
  | cmpeq
deriving DecidableEq, Repr, Inhabited

end Sys2Proof
end

