-- ==== Sys2Proof/WellFormed.lean ====
section
/-!
DEFINITION. Which command words spell a command, and which commands are well formed.
Written from the prose of rules R70 and R72, apart from the decoder and the encoder.
-/

namespace Sys2Proof

/-- The reserved field `RSV`, bits 63:8, is zero (rule R70). -/
def rsvZero (w : Word) : Bool := w.toNat / 2 ^ 8 == 0

/-- The operation code `OP`, bits 7:0, is one of the three that rule R71 assigns. -/
def opAssigned (w : Word) : Bool := 1 ≤ w.toNat % 2 ^ 8 && w.toNat % 2 ^ 8 ≤ 3

/-- The word spells a command: both checks of rule R72 hold. -/
def wellFormedWord (w : Word) : Bool := rsvZero w && opAssigned w

/-- A command has no operands (rule R73), so every command is well formed. -/
def Instr.wellFormed : Instr → Bool
  | .hash => true
  | .verify => true
  | .cmpeq => true

end Sys2Proof
end

