-- ==== Sys2Proof/Decode.lean ====
section
/-!
DEFINITION. The decoder of the command word and, after it, the encoder (rules R70 to R74).
-/

namespace Sys2Proof

/-- Why a word spells no command (rule R72). The engine answers both in the same way, with an
`IllegalCommand` completion (rule R203). -/
inductive IllegalWord where
  /-- `RSV`, bits 63:8, is not zero. -/
  | reservedBits
  /-- `RSV` is zero and `OP` is `0x00` or `0x04` to `0xFF`. -/
  | unassignedOp
deriving DecidableEq, Repr

/-- What a latched word spells: "every 64-bit value is either one of the three commands or
illegal" (rule R70). -/
inductive Decoded where
  | command (i : Instr)
  | illegal (why : IllegalWord)
deriving DecidableEq, Repr

/-- The field `OP`, bits 7:0 of the word (rule R70). -/
def opField (w : Word) : BitVec 8 := w.extractLsb' 0 8

/-- The field `RSV`, bits 63:8 of the word (rule R70). -/
def rsvField (w : Word) : BitVec 56 := w.extractLsb' 8 56

/-- The opcode map (rule R71). -/
def decodeOp (op : BitVec 8) : Decoded :=
  if op = 0x01#8 then .command .hash
  else if op = 0x02#8 then .command .verify
  else if op = 0x03#8 then .command .cmpeq
  else .illegal .unassignedOp

/-- Decoding of a latched word: `RSV` first, then `OP` (rule R70). -/
def decode (w : Word) : Decoded :=
  if rsvField w = 0#56 then decodeOp (opField w) else .illegal .reservedBits

/-- The instruction the decoder reads from `nbits` bits of value `w`, bit 0 least significant, as
spec/opcode_table.json numbers them. A command word is 64 bits; a longer one does not exist
(rule R74). -/
def decodeTableWord (nbits w : Nat) : Option Instr :=
  if w % 2 ^ nbits < 2 ^ 64 then
    match decode (BitVec.ofNat 64 (w % 2 ^ nbits)) with
    | .command i => some i
    | .illegal _ => none
  else none

/-- The operation code of a command (rule R71). -/
def opcodeOf : Instr → BitVec 8
  | .hash => 0x01#8
  | .verify => 0x02#8
  | .cmpeq => 0x03#8

/-- The word of a command: format `C`, `OP` in bits 7:0 and `RSV` zero (rules R70, R71). -/
def encode (i : Instr) : Word := 0#56 ++ opcodeOf i

end Sys2Proof
end

