-- ==== Sys2Proof/Machine/Types.lean ====
section
/-!
DEFINITION. The types of the pieces of state: memory, phase, capacities, the entropy answers, the
host's port operations, and the working registers of the internal level.
-/

namespace Sys2Proof.Machine

/-- A buffer's contents (rule R50): the bytes that differ from `0x00`, by offset, offsets strictly
rising. An offset that is not listed holds `0x00`, its value after reset (rule R41). -/
abbrev Memory := List Host.Cell

/-- The two buffers of a context (rule R50). -/
inductive Space where
  | sec
  | dig
deriving DecidableEq, Repr, Inhabited

/-- The phase of a context (rule R34). -/
inductive Phase where
  | idle
  | run
deriving DecidableEq, Repr, Inhabited

/-- A buffer capacity, `SEC_MAX` or `DIG_MAX`: "a natural number, or unbounded" (rule R5). -/
inductive Capacity where
  | bounded (n : Nat)
  | unbounded
deriving DecidableEq, Repr, Inhabited

/-- An answer of the entropy port to one request (rule R213). -/
inductive Draw where
  | fail
  | symbol (v : Fin 62)
deriving DecidableEq, Repr, Inhabited

/-- The errors a command can end with (rule R201). -/
inductive ErrorCode where
  /-- Code 1: HASH only, an entropy request was answered `fail` (rule R202). -/
  | entropyFailure
  /-- Code 2: the latched word spells no command (rule R203). -/
  | illegalCommand
  /-- Code 3: a length register exceeds the capacity of its buffer (rule R204). -/
  | lengthError
deriving DecidableEq, Repr

/-- The four host port operations (rules R78, R180 to R183). A register number and an offset are
any natural number. -/
inductive PortOp where
  | rdr (n : Nat)
  | wrr (n : Nat) (v : Word)
  | rdb (space : Space) (off : Nat)
  | wrb (space : Space) (off : Nat) (v : Byte)
deriving DecidableEq, Repr

/-- What the outside world does next. -/
inductive Input where
  /-- The host issues a port operation; held while the phase is RUN (rule R186). -/
  | port (op : PortOp)
  /-- The reset event, in either phase (rules R240, R241). -/
  | reset
  /-- Nothing happens outside for one step: lets a running command complete before a reset that
  stands after it. -/
  | wait
deriving DecidableEq, Repr

/-- What a read answers the host (rules R180, R182). -/
inductive Reply where
  | word (v : Word)
  | byte (v : Byte)
deriving DecidableEq, Repr

/-- Eight words: a chaining value `H[0..7]`, or the round variables `a` to `h` (rule R36). -/
structure Octet where
  a : Word
  b : Word
  c : Word
  d : Word
  e : Word
  f : Word
  g : Word
  h : Word
deriving DecidableEq, Repr, Inhabited

/-- The sequencer's positions (rule R38). -/
inductive Pos where
  | idle
  | check
  | salt (j : Nat)
  | iter (k blk t : Nat)
  | hex (k : Nat)
  | cmp (i : Nat)
  | done
deriving DecidableEq, Repr, Inhabited

/-- The internal working registers and the sequencer (rules R36, R37, R38). -/
structure Work where
  /-- `H[0..7]`, the chaining value. -/
  h : Octet
  /-- `a` to `h`, the round variables. -/
  vars : Octet
  /-- `W[0..79]`, the message schedule of the current block. -/
  w : Vector Word 80
  t1 : Word
  t2 : Word
  /-- `BLK`, the current padded block. -/
  blk : Vector Byte 128
  /-- `MLEN`, the bit length of the message being hashed. -/
  mlen : BitVec 128
  /-- `MSG`, the message of the current iteration. -/
  msg : Bytes
  /-- `SALT`; `saltlen` is its length. -/
  salt : Bytes
  /-- `HEXBUF`, the hex string of the last SHA-512 output. -/
  hexbuf : Vector Byte 128
  /-- The iteration counter. -/
  k : BitVec 5
  /-- The round counter. -/
  t : BitVec 7
  /-- The comparator's accumulator, 64 bits (rule R161). -/
  diff : Word
  /-- The comparator's loop index. -/
  i : Word
  /-- The comparator's loop bound. -/
  n : Word
  /-- `RBUF`, the reconstructed string of VERIFY; `rlen` is its length. -/
  rbuf : Bytes
  /-- `seq`, the sequencer position. -/
  seq : Pos
deriving DecidableEq, Repr, Inhabited

end Sys2Proof.Machine
end

