-- ==== Sys2Proof/Config.lean ====
section
/-!
DEFINITION. The fixed parameters (rule R4), the parameters the spec leaves open (rule R5) and the
free values. An `opaque` constant has no body: nothing in Lean can evaluate it, so what is proved
holds for every value it could have.
-/

namespace Sys2Proof.Config

open Sys2Proof.Machine

/-- `SALT_LEN` (rule R4). -/
def saltLen : Nat := 21

/-- `STRETCHES` (rule R4). -/
def stretches : Nat := 20

/-- `HEX_LEN` (rule R4). -/
def hexLen : Nat := 128

/-- `STORED_LEN` (rule R4). -/
def storedLen : Nat := saltLen + hexLen

/-- The bound of rule R5 on a bounded `SEC_MAX`: `SEC_MAX + SALT_LEN < 2^125`. -/
def secMaxBound : Nat := 2 ^ 125 - saltLen

/-- Which `SEC_MAX` this device has: unbounded (`none`), or one of the values rule R5 allows, all
below `secMaxBound`, whose value the type writes out. -/
opaque secChoice : Option (Fin 42535295865117307932921825928971026411)

/-- `SEC_MAX` of this device: open in the spec (rule R5, D15; log 8). -/
def secMax : Capacity :=
  match secChoice with
  | none => .unbounded
  | some n => .bounded n.val

/-- Which `DIG_MAX` this device has: unbounded (`none`), or that many bytes above 149. -/
opaque digChoice : Option Nat

/-- `DIG_MAX` of this device: open in the spec, never below `STORED_LEN` (rule R5, D15; log 8). -/
def digMax : Capacity :=
  match digChoice with
  | none => .unbounded
  | some n => .bounded (storedLen + n)

/-- How many contexts the device has beyond the first. -/
opaque moreContexts : Nat

/-- `NCTX`, at least 1: open in the spec (rule R5, D24; log 1). -/
def nctx : Nat := moreContexts + 1

/-- Free value (rule R213; log 4): the entropy device's answer to request number `n` of answer
stream `stream`, used when the state lists no answer to come. Each context has a stream of its
own, so nothing relates the answers of two contexts (rule R214). -/
opaque entropyTail (stream n : Nat) : Draw

/-- Free value (rule R35; log 5): what the working registers and the sequencer hold after
completion or reset number `n`. -/
opaque workLeft (stream n : Nat) : Work

/-- Free value (rule R34, U10; log 5): what `cmdlatch` holds after completion or reset number `n`,
in phase IDLE, where it is meaningless. -/
opaque latchLeft (stream n : Nat) : Word

/-- Free value (rule R241; log 15): how many entropy requests a HASH has made when reset number `n`
abandons it, 0 to 21. -/
opaque drawsLost (stream n : Nat) : Fin 22

end Sys2Proof.Config
end

