-- ==== Sys2Proof/Machine/State.lean ====
section
/-!
DEFINITION. The state of one context as plain data (rule R20), the reasons a step can stop, and the
state after reset (rule R41).
-/

namespace Sys2Proof.Machine

/-- Reasons the machine stops with a fault. There are none: every command is total (rule R11), an
error is an ordinary completion with a nonzero `STATUS.ERR` (rule R200), and an out-of-range or
wrong-direction access is ignored (rules R31, R62). Nobody raises one (log 13). -/
inductive Fault where
deriving DecidableEq, Repr

/-- Reasons the model gives an instruction no meaning. -/
inductive Refusal where
  /-- Raised by an arm of `exec` whose instruction has no meaning yet; safe. No arm raises it. -/
  | notModelled (mnemonic : String)
deriving DecidableEq, Repr

/-- The state of one context (rule R20), and the model's own fields for the world around it. -/
structure State where
  /-- `STATUS`, register 1 (rule R23). -/
  status : Word
  /-- `SLEN`, register 2 (rule R24). -/
  slen : Word
  /-- `DLEN`, register 3 (rule R25). -/
  dlen : Word
  /-- `CMPCNT`, register 4 (rule R26). -/
  cmpcnt : Word
  /-- `SEC`, the secret buffer (rule R32). -/
  sec : Memory
  /-- `DIG`, the digest buffer (rule R33). -/
  dig : Memory
  /-- `phase` (rule R34). -/
  phase : Phase
  /-- `cmdlatch`, meaningful only in phase RUN (rule R34). -/
  cmdlatch : Word
  /-- The internal working registers and the sequencer (rules R35 to R38). -/
  work : Work
  /-- `SEC_MAX`, hardwired, behind register 7 (rules R5, R29; log 8). -/
  secMax : Capacity
  /-- `DIG_MAX`, hardwired, behind register 8 (rules R5, R30; log 8). -/
  digMax : Capacity
  /-- The model's own: the answers the entropy device will give next (rule R213; log 4). -/
  entropy : List Draw
  /-- The model's own: which answer stream of the entropy device is this context's (log 4). -/
  stream : Nat
  /-- The model's own: how many entropy requests have been made (log 4). -/
  draws : Nat
  /-- The model's own: what the outside world does next, oldest first (rules R42, R63; log 2). -/
  inputs : List Input
  /-- The model's own: what the host's reads were answered, oldest first (log 3). -/
  replies : List Reply
  /-- The model's own: how many commands have completed or been reset, the argument of the free
  values that a completion or a reset leaves behind (log 5). -/
  fresh : Nat
deriving DecidableEq, Repr

/-- Eight zero words. -/
def Octet.zero : Octet := ⟨0, 0, 0, 0, 0, 0, 0, 0⟩

/-- The working registers after reset. Rule R41 leaves them unspecified; the model names zero, the
empty string and `S_IDLE` (DESIGN CHOICE, log 7). -/
def Work.reset : Work where
  h := Octet.zero
  vars := Octet.zero
  w := Vector.replicate 80 0
  t1 := 0
  t2 := 0
  blk := Vector.replicate 128 0
  mlen := 0
  msg := []
  salt := []
  hexbuf := Vector.replicate 128 0
  k := 0
  t := 0
  diff := 0
  i := 0
  n := 0
  rbuf := []
  seq := .idle

/-- The state after reset (rule R41): registers 0, both buffers zero, phase IDLE. `cmdlatch` and
`work` are unspecified there and named here (log 6, 7); the capacities are the device's (log 8); the
world around is silent (log 2, 3, 4, 5). -/
def State.reset : State where
  status := 0
  slen := 0
  dlen := 0
  cmpcnt := 0
  sec := []
  dig := []
  phase := .idle
  cmdlatch := 0
  work := Work.reset
  secMax := Config.secMax
  digMax := Config.digMax
  entropy := []
  stream := 0
  draws := 0
  inputs := []
  replies := []
  fresh := 0

end Sys2Proof.Machine
end

