-- ==== Sys2Proof/Machine/Flags.lean ====
section
/-!
DEFINITION. The status register's fields and the error codes (rules R23, R39, R201).
-/

namespace Sys2Proof.Machine

/-- The code of an error, the value of `STATUS.ERR` (rule R201). -/
def ErrorCode.code : ErrorCode → BitVec 4
  | .entropyFailure => 1
  | .illegalCommand => 2
  | .lengthError => 3

/-- `STATUS` as a completion writes it: `DONE` 1, `MATCH` and `ERR` as given, the rest zero
(rule R23). -/
def statusWord (matched : Bool) (err : BitVec 4) : Word :=
  1#64 ||| (BitVec.ofBool matched).setWidth 64 <<< 1 ||| err.setWidth 64 <<< 4

/-- `STATUS` of an error completion: `MATCH` is 0 (rules R23, R200). -/
def errorStatus (e : ErrorCode) : Word := statusWord false e.code

/-- `STATUS` of a completion without error, which found its two strings equal or not (rule R23). -/
def okStatus (matched : Bool) : Word := statusWord matched 0

/-- `STATUS.DONE`, bit 0 (rule R23). -/
def doneBit (status : Word) : Bool := status.getLsbD 0

/-- `STATUS.MATCH`, bit 1 (rule R23). -/
def matchBit (status : Word) : Bool := status.getLsbD 1

/-- `STATUS.ERR`, bits 7:4 (rule R23). -/
def errField (status : Word) : BitVec 4 := status.extractLsb' 4 4

/-- "The values `STATUS` can hold" (rule R23). -/
def reachableStatus : List Word := [0x00, 0x01, 0x03, 0x11, 0x21, 0x31]

end Sys2Proof.Machine
end

