-- ==== Sys2Proof/Machine/Ops.lean ====
section
/-!
DEFINITION. The operations over memory, registers and the entropy port; the completion of a
command, with the one operation that raises an error; the reset event. There is no return from an
error (rule R207), so none stands beside it.
-/

namespace Sys2Proof.Machine

/-! ### Buffers -/

/-- The byte at an offset; an unlisted one is `0x00` (rule R41). -/
def Memory.read : Memory → Nat → Byte
  | [], _ => 0
  | (a, v) :: m, off => if a = off then v else Memory.read m off

/-- A cell in front of a memory, left out when it holds what an unlisted offset reads as. -/
def Memory.cons (off : Nat) (v : Byte) (m : Memory) : Memory :=
  if v = 0 then m else (off, v) :: m

/-- Store a byte, keeping the canonical form. -/
def Memory.write : Memory → Nat → Byte → Memory
  | [], off, v => Memory.cons off v []
  | (a, u) :: m, off, v =>
    if a < off then (a, u) :: Memory.write m off v
    else if a = off then Memory.cons off v m
    else Memory.cons off v ((a, u) :: m)

/-- The `n` bytes from offset `off` on, index `i` being the byte at `off + i` (rule R53). -/
def Memory.readBytes (m : Memory) (off n : Nat) : Bytes :=
  (List.range n).map fun i => m.read (off + i)

/-- Store a byte string from offset `off` on (rule R53). -/
def Memory.writeBytes : Memory → Nat → Bytes → Memory
  | m, _, [] => m
  | m, off, b :: bs => Memory.writeBytes (m.write off b) (off + 1) bs

/-- Every byte `0x00` (rules R41, R43). -/
def Memory.zeros : Memory := []

/-- Every listed offset is at least `lo`, the offsets rise strictly, and no listed byte is `0x00`. -/
def Memory.risingFrom : Nat → Memory → Bool
  | _, [] => true
  | lo, (a, v) :: m => decide (lo ≤ a) && v != 0 && Memory.risingFrom (a + 1) m

/-- The canonical form. -/
def Memory.wf (m : Memory) : Bool := Memory.risingFrom 0 m

/-- The offset is below the capacity (rules R62, R182, R183). -/
def Capacity.covers : Capacity → Nat → Bool
  | .bounded n, off => off < n
  | .unbounded, _ => true

/-- The length names more bytes than the buffer has (rule R204). -/
def Capacity.exceededBy : Capacity → Word → Bool
  | .bounded n, len => n < len.toNat
  | .unbounded, _ => false

/-- What register 7 or 8 shows of a capacity: `min(capacity, 2^64 - 1)`, which "also stands for
unbounded" (rules R29, R30). -/
def Capacity.shown : Capacity → Word
  | .bounded n => BitVec.ofNat 64 (min n (2 ^ 64 - 1))
  | .unbounded => BitVec.ofNat 64 (2 ^ 64 - 1)

/-- Every listed offset is below the capacity. -/
def Memory.within (m : Memory) (c : Capacity) : Bool := m.all fun cell => c.covers cell.1

/-- A buffer's contents. -/
def State.buffer (s : State) : Space → Memory
  | .sec => s.sec
  | .dig => s.dig

/-- A buffer's capacity. -/
def State.capacity (s : State) : Space → Capacity
  | .sec => s.secMax
  | .dig => s.digMax

/-- Replace a buffer's contents. -/
def State.setBuffer (s : State) (space : Space) (m : Memory) : State :=
  match space with
  | .sec => { s with sec := m }
  | .dig => { s with dig := m }

/-- `MemRead(space, off, n)` (rule R10). -/
def memRead (space : Space) (off n : Nat) (s : State) : Bytes :=
  (s.buffer space).readBytes off n

/-- `MemWrite(space, off, n, bs)`, `n` being the length of `bs` (rule R10). -/
def memWrite (space : Space) (off : Nat) (bs : Bytes) (s : State) : State :=
  s.setBuffer space ((s.buffer space).writeBytes off bs)

/-! ### The entropy port -/

/-- `draw_symbol()`: one request, one answer (rule R213). The answers the state lists come first;
after them the answers are free. -/
def drawSymbol (s : State) : Draw × State :=
  match s.entropy with
  | d :: ds => (d, { s with entropy := ds, draws := s.draws + 1 })
  | [] => (Config.entropyTail s.stream s.draws, { s with draws := s.draws + 1 })

/-! ### Completion of a command -/

/-- The end of every command (rules R23, R26, R34): `STATUS` and `CMPCNT` written whole, phase IDLE.
What the working registers and the latch hold from now on is free (rule R35, U10; log 5). -/
def complete (status cmpcnt : Word) (s : State) : State :=
  { s with
    status := status
    cmpcnt := cmpcnt
    phase := .idle
    cmdlatch := Config.latchLeft s.stream s.fresh
    work := Config.workLeft s.stream s.fresh
    fresh := s.fresh + 1 }

/-- `raise <Error>()`: an error completion, the one operation by which every error is reported
(rules R10, R200). What a command adds to it stands with the command (rule R68). -/
def raise (e : ErrorCode) (s : State) : State := complete (errorStatus e) 0 s

/-- Secret zeroisation: every byte of `SEC` and `SLEN` (rule R43). -/
def zeroiseSecret (s : State) : State := { s with sec := Memory.zeros, slen := 0 }

/-- The completion of a word that spells no command (rules R72, R203). -/
def completeIllegal (s : State) : State := raise .illegalCommand s

end Sys2Proof.Machine
end

