-- ==== Sys2Proof/Machine/Operands.lean ====
section
/-!
DEFINITION. The operands of the commands, always in fixed places (rule R73), and the length checks
made before any operand byte is read (rule R204).
-/

namespace Sys2Proof.Machine

/-- `SEC[0 : SLEN]`: the secret of HASH and VERIFY, the string `a` of CMPEQ (rules R24, R73). -/
def secretOf (s : State) : Bytes := memRead .sec 0 s.slen.toNat s

/-- `DIG[0 : DLEN]`: the stored string of VERIFY, the string `b` of CMPEQ (rules R25, R73). -/
def storedOf (s : State) : Bytes := memRead .dig 0 s.dlen.toNat s

/-- `SLEN > SEC_MAX` (rule R204). -/
def secTooLong (s : State) : Bool := s.secMax.exceededBy s.slen

/-- `DLEN > DIG_MAX` (rule R204). -/
def digTooLong (s : State) : Bool := s.digMax.exceededBy s.dlen

/-- The check of VERIFY and CMPEQ: `SLEN > SEC_MAX or DLEN > DIG_MAX` (rule R204). -/
def eitherTooLong (s : State) : Bool := secTooLong s || digTooLong s

end Sys2Proof.Machine
end

