-- ==== Sys2Proof/Machine/Compare.lean ====
section
/-!
DEFINITION. The constant-time comparator and the CMPEQ command (spec/43_compare.md, rules R160 to
R166).
-/

namespace Sys2Proof.Machine

/-- The start value of `diff`: `len(a) XOR len(b)` on 64 bits (rules R160, R161). -/
def lengthDiff (a b : Bytes) : Word := BitVec.ofNat 64 a.length ^^^ BitVec.ofNat 64 b.length

/-- One byte comparison: `diff OR zext_64(x XOR y)` (rule R160). -/
def accumulate (diff : Word) (x y : Byte) : Word := diff ||| (x ^^^ y).setWidth 64

/-- The loop of `SlowEquals`, counting the byte comparisons it makes. It runs to the end of the
shorter string whatever `diff` holds (rule R162). -/
def slowLoop (diff : Word) (cnt : Nat) : Bytes → Bytes → Word × Nat
  | x :: a, y :: b => slowLoop (accumulate diff x y) (cnt + 1) a b
  | _, _ => (diff, cnt)

/-- `SlowEquals(a, b)`: the boolean and the count (rule R160). -/
def slowEquals (a b : Bytes) : Bool × Nat :=
  let r := slowLoop (lengthDiff a b) 0 a b
  (r.1 == 0, r.2)

/-- The end of a CMPEQ without error (rule R164, `S_DONE`). -/
def finishCmpeq (eq : Bool) (cnt : Nat) (s : State) : State :=
  complete (okStatus eq) (BitVec.ofNat 64 cnt) s

/-- The end of a CMPEQ with an error: nothing but `STATUS` and `CMPCNT` changes (rules R164, R204). -/
def cmpeqError (e : ErrorCode) (s : State) : State := raise e s

/-- The state a CMPEQ completes in (rule R164). -/
def cmpeqCompletion (s : State) : State :=
  if eitherTooLong s then cmpeqError .lengthError s
  else
    let r := slowEquals (secretOf s) (storedOf s)
    finishCmpeq r.1 r.2 s

/-- `CMPEQ` (rule R164). -/
def execCmpeq (s : State) : Host.Outcome State Fault Refusal := .next (cmpeqCompletion s)

end Sys2Proof.Machine
end

