-- ==== Sys2Proof/Machine/Sha512.lean ====
section
/-!
DEFINITION. The SHA-512 hash core (spec/40_sha512.md, rules R101 to R120), the hex encoding
(rules R76, R117, R118) and nothing of the commands. The spec itself marks rules R101 to R116 as
written from general knowledge and checked by execution (log 10).
-/

namespace Sys2Proof.Machine

/-! ### Word arithmetic -/

/-- `SHR(x, n)`, the logical right shift (rule R101). -/
def shr (x : Word) (n : Nat) : Word := x >>> n

/-- `ROTR(x, n)` for `0 < n < 64` (rule R101). -/
def rotr (x : Word) (n : Nat) : Word := shr x n ||| (x <<< (64 - n))

/-- `Ch(x, y, z)` (rule R102). -/
def ch (x y z : Word) : Word := (x &&& y) ^^^ (~~~x &&& z)

/-- `Maj(x, y, z)` (rule R103). -/
def maj (x y z : Word) : Word := (x &&& y) ^^^ (x &&& z) ^^^ (y &&& z)

/-- `BSIG0` (rule R104). -/
def bsig0 (x : Word) : Word := rotr x 28 ^^^ rotr x 34 ^^^ rotr x 39

/-- `BSIG1` (rule R105). -/
def bsig1 (x : Word) : Word := rotr x 14 ^^^ rotr x 18 ^^^ rotr x 41

/-- `SSIG0` (rule R106). -/
def ssig0 (x : Word) : Word := rotr x 1 ^^^ rotr x 8 ^^^ shr x 7

/-- `SSIG1` (rule R107). -/
def ssig1 (x : Word) : Word := rotr x 19 ^^^ rotr x 61 ^^^ shr x 6

/-! ### Constants -/

/-- `IV[0..7]` (rule R108). -/
def iv : Octet where
  a := 0x6a09e667f3bcc908#64
  b := 0xbb67ae8584caa73b#64
  c := 0x3c6ef372fe94f82b#64
  d := 0xa54ff53a5f1d36f1#64
  e := 0x510e527fade682d1#64
  f := 0x9b05688c2b3e6c1f#64
  g := 0x1f83d9abfb41bd6b#64
  h := 0x5be0cd19137e2179#64

/-- `K[0]` to `K[15]` (rule R109). -/
def kTable0 : List Word := [
   0x428a2f98d728ae22#64, 0x7137449123ef65cd#64, 0xb5c0fbcfec4d3b2f#64, 0xe9b5dba58189dbbc#64,
   0x3956c25bf348b538#64, 0x59f111f1b605d019#64, 0x923f82a4af194f9b#64, 0xab1c5ed5da6d8118#64,
   0xd807aa98a3030242#64, 0x12835b0145706fbe#64, 0x243185be4ee4b28c#64, 0x550c7dc3d5ffb4e2#64,
   0x72be5d74f27b896f#64, 0x80deb1fe3b1696b1#64, 0x9bdc06a725c71235#64, 0xc19bf174cf692694#64]

/-- `K[16]` to `K[31]` (rule R109). -/
def kTable1 : List Word := [
   0xe49b69c19ef14ad2#64, 0xefbe4786384f25e3#64, 0x0fc19dc68b8cd5b5#64, 0x240ca1cc77ac9c65#64,
   0x2de92c6f592b0275#64, 0x4a7484aa6ea6e483#64, 0x5cb0a9dcbd41fbd4#64, 0x76f988da831153b5#64,
   0x983e5152ee66dfab#64, 0xa831c66d2db43210#64, 0xb00327c898fb213f#64, 0xbf597fc7beef0ee4#64,
   0xc6e00bf33da88fc2#64, 0xd5a79147930aa725#64, 0x06ca6351e003826f#64, 0x142929670a0e6e70#64]

/-- `K[32]` to `K[47]` (rule R109). -/
def kTable2 : List Word := [
   0x27b70a8546d22ffc#64, 0x2e1b21385c26c926#64, 0x4d2c6dfc5ac42aed#64, 0x53380d139d95b3df#64,
   0x650a73548baf63de#64, 0x766a0abb3c77b2a8#64, 0x81c2c92e47edaee6#64, 0x92722c851482353b#64,
   0xa2bfe8a14cf10364#64, 0xa81a664bbc423001#64, 0xc24b8b70d0f89791#64, 0xc76c51a30654be30#64,
   0xd192e819d6ef5218#64, 0xd69906245565a910#64, 0xf40e35855771202a#64, 0x106aa07032bbd1b8#64]

/-- `K[48]` to `K[63]` (rule R109). -/
def kTable3 : List Word := [
   0x19a4c116b8d2d0c8#64, 0x1e376c085141ab53#64, 0x2748774cdf8eeb99#64, 0x34b0bcb5e19b48a8#64,
   0x391c0cb3c5c95a63#64, 0x4ed8aa4ae3418acb#64, 0x5b9cca4f7763e373#64, 0x682e6ff3d6b2b8a3#64,
   0x748f82ee5defb2fc#64, 0x78a5636f43172f60#64, 0x84c87814a1f0ab72#64, 0x8cc702081a6439ec#64,
   0x90befffa23631e28#64, 0xa4506cebde82bde9#64, 0xbef9a3f7b2c67915#64, 0xc67178f2e372532b#64]

/-- `K[64]` to `K[79]` (rule R109). -/
def kTable4 : List Word := [
   0xca273eceea26619c#64, 0xd186b8c721c0c207#64, 0xeada7dd6cde0eb1e#64, 0xf57d4f7fee6ed178#64,
   0x06f067aa72176fba#64, 0x0a637dc5a2c898a6#64, 0x113f9804bef90dae#64, 0x1b710b35131c471b#64,
   0x28db77f523047d84#64, 0x32caab7b40c72493#64, 0x3c9ebe0a15c9bebc#64, 0x431d67c49c100d4c#64,
   0x4cc5d4becb3e42b6#64, 0x597f299cfc657e2a#64, 0x5fcb6fab3ad6faec#64, 0x6c44198c4a475817#64]

/-- `K[0..79]` (rule R109). -/
def kTable : List Word := kTable0 ++ kTable1 ++ kTable2 ++ kTable3 ++ kTable4

/-! ### Message preparation -/

/-- The `n`-byte big-endian form of `v`, most significant byte first (rule R54). -/
def beBytes : Nat → Nat → Bytes
  | 0, _ => []
  | n + 1, v => beBytes n (v / 256) ++ [BitVec.ofNat 8 v]

/-- The number a byte string spells, most significant byte first (rule R54). -/
def beNat (bs : Bytes) : Nat := bs.foldl (fun n b => n * 256 + b.toNat) 0

/-- `z = (111 - L) mod 128`, the number of zero bytes of the padding (rule R110), written without
a negative intermediate value. -/
def padZeros (len : Nat) : Nat := (111 + 127 * len) % 128

/-- `Pad(m)` (rule R110). -/
def pad (m : Bytes) : Bytes :=
  m ++ [0x80#8] ++ List.replicate (padZeros m.length) 0 ++ beBytes 16 (8 * m.length)

/-- `NB(L)`, the number of blocks, and so of compressions, of a message of `L` bytes (rule R120). -/
def blockCount (len : Nat) : Nat := (len + 16) / 128 + 1

/-- `B_j`, block `j` of a padded message (rule R111). -/
def block (padded : Bytes) (j : Nat) : Bytes := (padded.drop (128 * j)).take 128

/-- `M_j[0..15]`, the sixteen big-endian words of a block (rule R111). -/
def blockWords (b : Bytes) : List Word :=
  (List.range 16).map fun r => BitVec.ofNat 64 (beNat ((b.drop (8 * r)).take 8))

/-- `W[t]` from the earlier words, for `t` in 16 .. 79 (rule R112). -/
def scheduleWord (w : List Word) (t : Nat) : Word :=
  ssig1 (w.getD (t - 2) 0) + w.getD (t - 7) 0 + ssig0 (w.getD (t - 15) 0) + w.getD (t - 16) 0

/-- The schedule extended by `n` words (rule R112). -/
def extendSchedule : Nat → List Word → List Word
  | 0, w => w
  | n + 1, w => extendSchedule n (w ++ [scheduleWord w w.length])

/-- `W[0..79]` from the sixteen words of a block (rule R112). -/
def schedule (m : List Word) : List Word := extendSchedule 64 m

/-! ### Compression -/

/-- `T1` of a round (rule R113), from the round's `K[t]` and `W[t]`. -/
def roundT1 (v : Octet) (k w : Word) : Word := v.h + bsig1 v.e + ch v.e v.f v.g + k + w

/-- `T2` of a round (rule R113). -/
def roundT2 (v : Octet) : Word := bsig0 v.a + maj v.a v.b v.c

/-- One round: every right-hand side is read before any left-hand side is written (rule R113). -/
def hashRound (v : Octet) (k w : Word) : Octet where
  a := roundT1 v k w + roundT2 v
  b := v.a
  c := v.b
  d := v.c
  e := v.d + roundT1 v k w
  f := v.e
  g := v.f
  h := v.g

/-- Rounds 0 to 79 over the pairs `(K[t], W[t])` (rule R114). -/
def rounds (v : Octet) (kws : List (Word × Word)) : Octet :=
  kws.foldl (fun v kw => hashRound v kw.1 kw.2) v

/-- The final addition of a compression, word by word (rule R114). -/
def Octet.add (x y : Octet) : Octet where
  a := x.a + y.a
  b := x.b + y.b
  c := x.c + y.c
  d := x.d + y.d
  e := x.e + y.e
  f := x.f + y.f
  g := x.g + y.g
  h := x.h + y.h

/-- Compression of one block (rule R114). -/
def compress (hv : Octet) (m : List Word) : Octet :=
  hv.add (rounds hv (kTable.zip (schedule m)))

/-- `BE8(H[0]) || ... || BE8(H[7])` (rule R115). -/
def Octet.toBytes (x : Octet) : Bytes :=
  [x.a, x.b, x.c, x.d, x.e, x.f, x.g, x.h].flatMap fun w => beBytes 8 w.toNat

/-- The chaining value after the blocks of `m`, from `IV` (rule R115). -/
def hashBlocks (m : Bytes) : Octet :=
  (List.range (blockCount m.length)).foldl (fun hv j => compress hv (blockWords (block (pad m) j)))
    iv

/-- `SHA512(m)` (rule R115). -/
def sha512 (m : Bytes) : Bytes := (hashBlocks m).toBytes

/-! ### Hexadecimal output -/

/-- `HEXD[v]`, the lowercase hex digit of a nibble (rule R76). -/
def hexDigit (v : BitVec 4) : Byte :=
  if v.toNat < 10 then BitVec.ofNat 8 (0x30 + v.toNat) else BitVec.ofNat 8 (0x61 + (v.toNat - 10))

/-- `HexEnc(d)`: high nibble first (rules R55, R117). -/
def hexEnc (d : Bytes) : Bytes :=
  d.flatMap fun b => [hexDigit (b.extractLsb' 4 4), hexDigit (b.extractLsb' 0 4)]

/-- `SHA512HEX(m)` (rule R118). -/
def sha512Hex (m : Bytes) : Bytes := hexEnc (sha512 m)

end Sys2Proof.Machine
end

