-- ==== Sys2Proof/Machine/Hash.lean ====
section
/-!
DEFINITION. Salt generation, the stretch and the HASH command (spec/41_hash.md, rules R130 to
R140).
-/

namespace Sys2Proof.Machine

/-- `ALPHA[v]`, the byte of a salt symbol (rule R75). -/
def alpha (v : Fin 62) : Byte :=
  if v.val < 10 then BitVec.ofNat 8 (0x30 + v.val)
  else if v.val < 36 then BitVec.ofNat 8 (0x61 + (v.val - 10))
  else BitVec.ofNat 8 (0x41 + (v.val - 36))

/-- Draw `n` more symbols onto the salt so far; stop at the first `fail` (rule R130). -/
def saltLoop : Nat → Bytes → State → Option Bytes × State
  | 0, salt, s => (some salt, s)
  | n + 1, salt, s =>
    match drawSymbol s with
    | (.fail, s') => (none, s')
    | (.symbol v, s') => saltLoop n (salt ++ [alpha v]) s'

/-- `SaltGen()`: a 21-byte salt, or none when a draw fails (rule R130). -/
def saltGen (s : State) : Option Bytes × State := saltLoop Config.saltLen [] s

/-- `n` applications of SHA-512 to the hex text of the one before (rules R132, R133). -/
def rehash : Nat → Bytes → Bytes
  | 0, digest => digest
  | n + 1, digest => rehash n (sha512Hex digest)

/-- `Stretch(secret, salt)` (rule R132). -/
def stretch (secret salt : Bytes) : Bytes := rehash Config.stretches (secret ++ salt)

/-- The end of a HASH without error (rules R134, R135, `S_DONE`). -/
def finishHash (salt digest : Bytes) (s : State) : State :=
  zeroiseSecret (complete (okStatus false) 0
    { memWrite .dig 0 (salt ++ digest) s with dlen := BitVec.ofNat 64 Config.storedLen })

/-- The end of a HASH with an error: `DIG` keeps its bytes, `DLEN` becomes 0 (rule R136). -/
def hashError (e : ErrorCode) (s : State) : State :=
  zeroiseSecret (raise e { s with dlen := 0 })

/-- The state a HASH completes in (rule R134): the length check comes first, so that a command that
cannot run draws nothing (rule R206). -/
def hashCompletion (s : State) : State :=
  if secTooLong s then hashError .lengthError s
  else
    match saltGen s with
    | (none, s') => hashError .entropyFailure s'
    | (some salt, s') => finishHash salt (stretch (secretOf s) salt) s'

/-- `HASH` (rule R134). -/
def execHash (s : State) : Host.Outcome State Fault Refusal := .next (hashCompletion s)

end Sys2Proof.Machine
end

