-- ==== Sys2Proof/Machine/Verify.lean ====
section
/-!
DEFINITION. The VERIFY command (spec/42_verify.md, rules R150 to R156).
-/

namespace Sys2Proof.Machine

/-- `ExtractSalt(stored)`, taken as it is, unchecked (rule R150). -/
def extractSalt (stored : Bytes) : Bytes := stored.take Config.saltLen

/-- `Reconstruct(secret, stored)` (rule R151). -/
def reconstruct (secret stored : Bytes) : Bytes :=
  extractSalt stored ++ stretch secret (extractSalt stored)

/-- `Verify(secret, stored)`: the reconstructed string is the first argument (rule R152). -/
def verifyStrings (secret stored : Bytes) : Bool × Nat :=
  slowEquals (reconstruct secret stored) stored

/-- The end of a VERIFY without error (rule R153, `S_DONE`). -/
def finishVerify (eq : Bool) (cnt : Nat) (s : State) : State :=
  zeroiseSecret (complete (okStatus eq) (BitVec.ofNat 64 cnt) s)

/-- The end of a VERIFY with an error: `DIG` and `DLEN` keep their values (rules R153, R204). -/
def verifyError (e : ErrorCode) (s : State) : State := zeroiseSecret (raise e s)

/-- The state a VERIFY completes in (rule R153). -/
def verifyCompletion (s : State) : State :=
  if eitherTooLong s then verifyError .lengthError s
  else
    let r := verifyStrings (secretOf s) (storedOf s)
    finishVerify r.1 r.2 s

/-- `VERIFY` (rule R153). -/
def execVerify (s : State) : Host.Outcome State Fault Refusal := .next (verifyCompletion s)

end Sys2Proof.Machine
end

