-- ==== Sys2Proof/Machine/Dispatch.lean ====
section
/-!
DEFINITION. `exec`: the completion of a command (rule R185), one arm per command.
-/

namespace Sys2Proof.Machine

def exec (i : Instr) (s : State) : Host.Outcome State Fault Refusal :=
  match i with
  -- rule R134
  | .hash => Sys2Proof.Machine.execHash s
  -- rule R153
  | .verify => Sys2Proof.Machine.execVerify s
  -- rule R164
  | .cmpeq => Sys2Proof.Machine.execCmpeq s

end Sys2Proof.Machine
end

