-- ==== Sys2Proof/Machine/Port.lean ====
section
/-!
DEFINITION. The host port (spec/44_host_access.md, rules R180 to R186) and what the outside world
does to a context at each step.
-/

namespace Sys2Proof.Machine

/-- `RDR n` (rule R180): the value of register `n`. Registers 5 to 8 are hardwired (rules R27 to
R30); register 0 and those from 9 on read 0 (rules R22, R31). -/
def readReg (n : Nat) (s : State) : Word :=
  match n with
  | 1 => s.status
  | 2 => s.slen
  | 3 => s.dlen
  | 4 => s.cmpcnt
  | 5 => BitVec.ofNat 64 Config.saltLen
  | 6 => BitVec.ofNat 64 Config.stretches
  | 7 => s.secMax.shown
  | 8 => s.digMax.shown
  | _ => 0

/-- `WRR n, v` (rule R181): register 0 issues a command (rule R184), 2 and 3 store, every other
write is ignored (rule R31). -/
def writeReg (n : Nat) (v : Word) (s : State) : State :=
  match n with
  | 0 => { s with cmdlatch := v, phase := .run }
  | 2 => { s with slen := v }
  | 3 => { s with dlen := v }
  | _ => s

/-- `RDB space, off` (rule R182): `0x00` at or above the capacity (rule R62). -/
def readByte (space : Space) (off : Nat) (s : State) : Byte :=
  if (s.capacity space).covers off then (s.buffer space).read off else 0

/-- `WRB space, off, v` (rule R183): ignored at or above the capacity (rule R62). -/
def writeByte (space : Space) (off : Nat) (v : Byte) (s : State) : State :=
  if (s.capacity space).covers off then s.setBuffer space ((s.buffer space).write off v) else s

/-- The port answers the host (log 3). -/
def reply (r : Reply) (s : State) : State := { s with replies := s.replies ++ [r] }

/-- One port operation, in phase IDLE (rules R180 to R183). -/
def portOp (op : PortOp) (s : State) : State :=
  match op with
  | .rdr n => reply (.word (readReg n s)) s
  | .wrr n v => writeReg n v s
  | .rdb space off => reply (.byte (readByte space off s)) s
  | .wrb space off v => writeByte space off v s

/-- Entropy a running HASH has already drawn when a reset strikes is lost (rule R241). How far the salt
generation had come is free: some number of requests, none after one that failed (log 15). -/
def abandonDraws (s : State) : State :=
  match s.phase, decode s.cmdlatch with
  | .run, .command .hash =>
    if secTooLong s then s else (saltLoop (Config.drawsLost s.stream s.fresh).val [] s).2
  | _, _ => s

/-- The reset event (rules R240, R241): the context takes its reset state, in either phase. Outside
the context, the device's capacities, the entropy device and the host are not touched (rules R29,
R30, R41). What rule R41 leaves unspecified is free (log 5). -/
def resetEvent (s : State) : State :=
  let s' := abandonDraws s
  { State.reset with
    cmdlatch := Config.latchLeft s.stream s.fresh
    work := Config.workLeft s.stream s.fresh
    secMax := s.secMax
    digMax := s.digMax
    entropy := s'.entropy
    stream := s.stream
    draws := s'.draws
    inputs := s.inputs
    replies := s.replies
    fresh := s.fresh + 1 }

/-- A reset strikes now (rule R240). -/
def resetPending (s : State) : Bool :=
  match s.inputs with
  | .reset :: _ => true
  | _ => false

/-- The outside world's move, the first of `inputs`. Nothing to come: the context waits for the next
port operation (rule R215). -/
def outsideMove (s : State) : State :=
  match s.inputs with
  | [] => s
  | .port op :: rest => portOp op { s with inputs := rest }
  | .reset :: rest => resetEvent { s with inputs := rest }
  | .wait :: rest => { s with inputs := rest }

/-- While a command completes, a wait passes and a port operation stays held (rule R186). -/
def passWait (s : State) : State :=
  match s.inputs with
  | .wait :: rest => { s with inputs := rest }
  | _ => s

/-- Put `w` where the next step takes its command from, as the host's write to `CMD` does
(rules R22, R184; log 12). A reset that stands first would strike before the command completes, so a
wait is put in front of it. -/
def issueNow (w : Word) (s : State) : State :=
  { s with
    cmdlatch := w
    phase := .run
    inputs := if resetPending s then .wait :: s.inputs else s.inputs }

end Sys2Proof.Machine
end

