-- ==== Sys2Proof/Machine/Step.lean ====
section
/-!
DEFINITION. One step of a context and the outside world. In phase IDLE the outside world moves; in
phase RUN the engine completes the latched command in one atomic step (rules R185, R186), unless a
reset strikes first (rule R241).
-/

namespace Sys2Proof.Machine

/-- The engine's one step: decode the latched word and complete it (rule R185). -/
def completeLatched (s : State) : Host.Outcome State Fault Refusal :=
  match decode s.cmdlatch with
  | .command i => exec i s
  | .illegal _ => .next (completeIllegal s)

/-- One step. -/
def step (s : State) : Host.Outcome State Fault Refusal :=
  match s.phase with
  | .idle => .next (outsideMove s)
  | .run => if resetPending s then .next (outsideMove s) else completeLatched (passWait s)

/-- `s` with the command word of value `w`, given `nbits` bits, latched as if the host had just
written it to `CMD`, so that the next step completes it (log 12). -/
def State.withFetchWord (s : State) (nbits w : Nat) : State :=
  issueNow (BitVec.ofNat 64 (w % 2 ^ nbits)) s

end Sys2Proof.Machine
end

