-- ==== Sys2Proof/Machine/Contexts.lean ====
section
/-!
DEFINITION. The hardware of `NCTX` contexts: the product of contexts that rule R214 describes, each
with its own host port, over one reset event that puts every context into its reset state (rule
R240). One context is a complete model (rule R214, D24), and `core` is one context.
-/

namespace Sys2Proof.Machine

/-- The contexts of a device, by number (rules R20, R214). -/
abbrev System := List State

/-- Every context in its reset state, each with an answer stream of the entropy device of its own
(rules R214, R240). -/
def System.reset : System := (List.range Config.nctx).map fun j => { State.reset with stream := j }

/-- Context `k` moves. Its step touches no other context (rule R214), but a reset that strikes there
puts every other context into its reset state too (rule R240). -/
def System.step (k : Nat) (cs : System) : Host.Outcome System Fault Refusal :=
  match cs[k]? with
  | none => .next cs
  | some c =>
    match Sys2Proof.Machine.step c with
    | .next c' =>
      if resetPending c then .next ((cs.map resetEvent).set k c') else .next (cs.set k c')
    | .fault r => .fault r
    | .refused r => .refused r

end Sys2Proof.Machine
end

