-- ==== Sys2Proof/Machine/Sequencer.lean ====
section
/-!
DEFINITION. The internal level (rule R6): the sequencer of rule R38 walking through a command over
the working registers of rules R36 and R37, one position a step, and the walk as the function of
lengths alone that rules R155, R162, R250 and R251 say it is. `exec` does not use this file: the
architectural level is normative, and the statements say the two agree.
-/

namespace Sys2Proof.Machine

/-- `l` as exactly `n` elements: cut, or filled up with `d`. -/
def exactly {α : Type} (n : Nat) (d : α) (l : List α) : Vector α n :=
  Vector.ofFn fun i => l.getD i.val d

/-- Move to a position. -/
def seqGoto (p : Pos) (s : State) : State := { s with work := { s.work with seq := p } }

/-- Begin the walk of the latched command at `S_CHECK`. Nothing of the working registers is read
before it is written (rule R35). -/
def seqStart (s : State) : State := seqGoto .check s

/-- Begin iteration `k` of the stretch on the message `msg`: a fresh `IV` (rules R115, R132). -/
def startIteration (k : Nat) (msg : Bytes) (s : State) : State :=
  { s with work := { s.work with
      h := iv
      msg := msg
      mlen := BitVec.ofNat 128 (8 * msg.length)
      k := BitVec.ofNat 5 k
      seq := .iter k 0 0 } }

/-- Begin the comparison of `a` and `b` (rule R160). -/
def startCompare (a b : Bytes) (s : State) : State :=
  { s with work := { s.work with
      diff := lengthDiff a b
      i := 0
      n := BitVec.ofNat 64 (min a.length b.length)
      seq := .cmp 0 } }

/-- `S_CHECK` (rules R134, R153, R164). -/
def seqCheck (cmd : Instr) (s : State) : State :=
  match cmd with
  | .hash =>
    if secTooLong s then hashError .lengthError s
    else { s with work := { s.work with salt := [], seq := .salt 0 } }
  | .verify =>
    if eitherTooLong s then verifyError .lengthError s
    else
      let salt := extractSalt (storedOf s)
      startIteration 1 (secretOf s ++ salt) { s with work := { s.work with salt := salt } }
  | .cmpeq =>
    if eitherTooLong s then cmpeqError .lengthError s
    else startCompare (secretOf s) (storedOf s) s

/-- `S_SALT(j)`: one draw (rule R130). -/
def seqSalt (j : Nat) (s : State) : State :=
  match drawSymbol s with
  | (.fail, s') => hashError .entropyFailure s'
  | (.symbol v, s') =>
    let salt := s'.work.salt ++ [alpha v]
    let s'' := { s' with work := { s'.work with salt := salt } }
    if j + 1 < Config.saltLen then seqGoto (.salt (j + 1)) s''
    else startIteration 1 (secretOf s'' ++ salt) s''

/-- The loads before the first round of a block (rules R111, R112, R114). -/
def loadBlock (blk : Nat) (s : State) : State :=
  let b := block (pad s.work.msg) blk
  { s with work := { s.work with
      blk := exactly 128 0 b
      w := exactly 80 0 (schedule (blockWords b))
      vars := s.work.h } }

/-- Round `t` on the working registers (rule R113). -/
def workRound (t : Nat) (s : State) : State :=
  let kt := kTable.getD t 0
  let wt := s.work.w.toList.getD t 0
  { s with work := { s.work with
      t1 := roundT1 s.work.vars kt wt
      t2 := roundT2 s.work.vars
      vars := hashRound s.work.vars kt wt
      t := BitVec.ofNat 7 t } }

/-- The final addition of a block (rule R114). -/
def addChain (s : State) : State :=
  { s with work := { s.work with h := s.work.h.add s.work.vars } }

/-- `S_ITER(k, blk, t)`: one round, with the loads before round 0 and the addition after round 79
(rule R114). -/
def seqIter (k blk t : Nat) (s : State) : State :=
  let s' := workRound t (if t = 0 then loadBlock blk s else s)
  if t < 79 then seqGoto (.iter k blk (t + 1)) s'
  else if blk + 1 < blockCount s.work.msg.length then seqGoto (.iter k (blk + 1) 0) (addChain s')
  else seqGoto (.hex k) (addChain s')

/-- `S_HEX(k)`: the hex text of the hash, which is the next message or the digest
(rules R118, R132, R133). -/
def seqHex (cmd : Instr) (k : Nat) (s : State) : State :=
  let hex := hexEnc s.work.h.toBytes
  let s' := { s with work := { s.work with hexbuf := exactly 128 0 hex } }
  if k < Config.stretches then startIteration (k + 1) s'.work.hexbuf.toList s'
  else
    match cmd with
    | .verify =>
      let rbuf := s'.work.salt ++ s'.work.hexbuf.toList
      startCompare rbuf (storedOf s') { s' with work := { s'.work with rbuf := rbuf } }
    | .hash | .cmpeq => seqGoto .done s'

/-- The first string of the comparison a command makes (rules R152, R164). -/
def seqCompareA (cmd : Instr) (s : State) : Bytes :=
  match cmd with
  | .cmpeq => secretOf s
  | .hash | .verify => s.work.rbuf

/-- `S_CMP(i)`: the loop-end test, which reads lengths alone, then one byte comparison
(rules R160, R162). -/
def seqCmp (cmd : Instr) (i : Nat) (s : State) : State :=
  if i < s.work.n.toNat then
    { s with work := { s.work with
        diff := accumulate s.work.diff ((seqCompareA cmd s).getD i 0) ((storedOf s).getD i 0)
        i := BitVec.ofNat 64 (i + 1)
        seq := .cmp (i + 1) } }
  else seqGoto .done s

/-- `S_DONE` (rules R134, R153, R164). -/
def seqDone (cmd : Instr) (s : State) : State :=
  match cmd with
  | .hash => finishHash s.work.salt s.work.hexbuf.toList s
  | .verify => finishVerify (s.work.diff == 0) s.work.n.toNat s
  | .cmpeq => finishCmpeq (s.work.diff == 0) s.work.n.toNat s

/-- One position of a command's walk (rule R38). -/
def seqMove (cmd : Instr) (s : State) : State :=
  match s.work.seq with
  | .idle => seqGoto .check s
  | .check => seqCheck cmd s
  | .salt j => seqSalt j s
  | .iter k blk t => seqIter k blk t s
  | .hex k => seqHex cmd k s
  | .cmp i => seqCmp cmd i s
  | .done => seqDone cmd s

/-- One internal step; the sequencer rests in phase IDLE (rule R38). -/
def seqStep (s : State) : State :=
  match s.phase with
  | .idle => s
  | .run =>
    match decode s.cmdlatch with
    | .command cmd => seqMove cmd s
    | .illegal _ => completeIllegal s

/-- `n` internal steps. -/
def seqRun : Nat → State → State
  | 0, s => s
  | n + 1, s => seqRun n (seqStep s)

/-- The positions visited in the next `n` internal steps, until the command completes. -/
def seqTrace : Nat → State → List Pos
  | 0, _ => []
  | n + 1, s =>
    match s.phase with
    | .idle => []
    | .run => s.work.seq :: seqTrace n (seqStep s)

/-! ### The walk as a function of lengths -/

/-- The positions of one SHA-512 application of `blocks` blocks in iteration `k` (rules R114,
R115, R120). -/
def walkBlocks (k blocks : Nat) : List Pos :=
  (List.range blocks).flatMap fun blk => (List.range 80).map fun t => .iter k blk t

/-- The positions of a stretch whose first message has `len` bytes: every later message is the
128 characters of a hex string (rules R133, R140). -/
def walkStretch (len : Nat) : List Pos :=
  (List.range Config.stretches).flatMap fun j =>
    walkBlocks (j + 1) (blockCount (if j = 0 then len else Config.hexLen)) ++ [.hex (j + 1)]

/-- The positions of `n` byte comparisons: `S_CMP(0)` to `S_CMP(n)` (rule R162). -/
def walkCompare (n : Nat) : List Pos := (List.range (n + 1)).map .cmp

/-- The positions a command that completes without error visits, from its two lengths alone
(rules R250, R251). -/
def walk (cmd : Instr) (slen dlen : Nat) : List Pos :=
  match cmd with
  | .hash =>
    [.check] ++ (List.range Config.saltLen).map .salt ++ walkStretch (slen + Config.saltLen)
      ++ [.done]
  | .verify =>
    [.check] ++ walkStretch (slen + min Config.saltLen dlen)
      ++ walkCompare (min Config.storedLen dlen) ++ [.done]
  | .cmpeq => [.check] ++ walkCompare (min slen dlen) ++ [.done]

/-- The position is a round, `S_ITER(k, blk, t)`. -/
def Pos.isRound : Pos → Bool
  | .iter _ _ _ => true
  | _ => false

/-- The position begins a compression, `S_ITER(k, blk, 0)`. -/
def Pos.isBlockStart : Pos → Bool
  | .iter _ _ 0 => true
  | _ => false

/-- The position ends a SHA-512 application, `S_HEX(k)`. -/
def Pos.isHex : Pos → Bool
  | .hex _ => true
  | _ => false

/-- The position draws a symbol, `S_SALT(j)`. -/
def Pos.isDraw : Pos → Bool
  | .salt _ => true
  | _ => false

/-- The position is `S_CMP(i)`. -/
def Pos.isCompare : Pos → Bool
  | .cmp _ => true
  | _ => false

/-- How many rounds the positions make (rule R250). -/
def countRounds (ps : List Pos) : Nat := ps.countP Pos.isRound

/-- How many compressions the positions make (rule R250). -/
def countCompressions (ps : List Pos) : Nat := ps.countP Pos.isBlockStart

/-- How many SHA-512 applications the positions make (rule R250). -/
def countHashes (ps : List Pos) : Nat := ps.countP Pos.isHex

/-- How many symbols the positions draw (rule R250). -/
def countDraws (ps : List Pos) : Nat := ps.countP Pos.isDraw

/-- How many byte comparisons the positions make: one at every `S_CMP(i)` but the last, which is the
loop-end test that leaves the loop (rule R162). -/
def countComparisons (ps : List Pos) : Nat := ps.countP Pos.isCompare - 1

end Sys2Proof.Machine
end

