-- ==== Sys2Proof/Safety.lean ====
section
/-!
DEFINITION. What counts as a legal state, and the words the claims use.
-/

namespace Sys2Proof.Machine

/-- A capacity that rule R5 allows for `SEC`: `SEC_MAX + SALT_LEN < 2^125` when bounded. -/
def Capacity.okForSec : Capacity → Prop
  | .bounded n => n + Config.saltLen < 2 ^ 125
  | .unbounded => True

/-- A capacity that rule R5 allows for `DIG`: at least `STORED_LEN` when bounded. -/
def Capacity.okForDig : Capacity → Prop
  | .bounded n => Config.storedLen ≤ n
  | .unbounded => True

/-- What every state a context can be in satisfies: canonical buffers within their capacities,
capacities that rule R5 allows, one of the six values of `STATUS` (rule R23), and a comparison count
of 0 unless the last command was one that completed without error (rule R26). -/
structure State.Legal (s : State) : Prop where
  secCanonical : s.sec.wf = true
  digCanonical : s.dig.wf = true
  secWithin : s.sec.within s.secMax = true
  digWithin : s.dig.within s.digMax = true
  secCapacity : s.secMax.okForSec
  digCapacity : s.digMax.okForDig
  statusReachable : s.status ∈ reachableStatus
  countZero : doneBit s.status = false ∨ errField s.status ≠ 0 → s.cmpcnt = 0

/-- What the host can see of a context through its port, and the phase: registers, buffers and
capacities. Neither the latch nor the working registers (rules R34, R35). -/
structure HostView where
  status : Word
  slen : Word
  dlen : Word
  cmpcnt : Word
  sec : Memory
  dig : Memory
  phase : Phase
  secMax : Capacity
  digMax : Capacity
deriving DecidableEq, Repr

/-- The host's view of a state. -/
def State.view (s : State) : HostView where
  status := s.status
  slen := s.slen
  dlen := s.dlen
  cmpcnt := s.cmpcnt
  sec := s.sec
  dig := s.dig
  phase := s.phase
  secMax := s.secMax
  digMax := s.digMax

/-- The world around a context: what the entropy device will answer, what the host will do and what
it was answered. -/
structure World where
  entropy : List Draw
  stream : Nat
  draws : Nat
  inputs : List Input
  replies : List Reply
deriving DecidableEq, Repr

/-- The world around a state's context. -/
def State.world (s : State) : World where
  entropy := s.entropy
  stream := s.stream
  draws := s.draws
  inputs := s.inputs
  replies := s.replies

/-- The entropy device's answer to the `j`-th request from `s` on, counting from 0 (rule R213). -/
def State.answer (s : State) (j : Nat) : Draw :=
  s.entropy.getD j (Config.entropyTail s.stream (s.draws + j))

/-- The next 21 requests are all answered with a symbol, `v j` being the `j`-th (rule R130). -/
def State.drawsSalt (s : State) (v : Nat → Fin 62) : Prop :=
  ∀ j, j < Config.saltLen → s.answer j = .symbol (v j)

/-- Request number `m` of the next 21 is the first to be answered `fail` (rule R130). -/
def State.drawsFailAt (s : State) (m : Nat) : Prop :=
  m < Config.saltLen ∧ s.answer m = .fail ∧ ∀ j, j < m → s.answer j ≠ .fail

/-- The salt of the symbols `v 0` to `v 20` (rules R75, R130). -/
def saltOf (v : Nat → Fin 62) : Bytes := (List.range Config.saltLen).map fun j => alpha (v j)

/-- Two contexts hold the same operands for a command: the lengths and the bytes below them
(rules R68, R73). -/
structure SameOperands (s u : State) : Prop where
  slen : u.slen = s.slen
  dlen : u.dlen = s.dlen
  secBytes : ∀ i, i < s.slen.toNat → u.sec.read i = s.sec.read i
  digBytes : ∀ i, i < s.dlen.toNat → u.dig.read i = s.dig.read i
  secMax : u.secMax = s.secMax
  digMax : u.digMax = s.digMax

end Sys2Proof.Machine
end

