-- ==== Sys2Proof/Certificates/Slice0/Obligations.lean ====
section
/-!
DEFINITION. The statements for the provers, one per entry of OBLIGATIONS.json. `Legal`, `drawsSalt`,
`drawsFailAt`, `SameOperands`, `view` and `world` are in Safety.lean. The fields `entropy`, `stream`,
`draws`, `inputs` and `replies` are the model's own form of what the spec keeps outside the SDE: the
entropy device's answers and requests (log 4), the host's operations (log 2) and what they were answered
(log 3). No statement rests on a value of theirs, nor on one that a log entry names at reset.
-/

open Sys2Proof Sys2Proof.Machine

/-! ### Encoding -/

/-- The words of the opcode map (rule R71) decode to their commands, and words beside them are
illegal (rules R70, R72). -/
def Obligations.TableWordsDecode : Prop :=
  decode 0x0000000000000001 = .command .hash
  ∧ decode 0x0000000000000002 = .command .verify
  ∧ decode 0x0000000000000003 = .command .cmpeq
  ∧ decode 0x0000000000000000 = .illegal .unassignedOp
  ∧ decode 0x0000000000000004 = .illegal .unassignedOp
  ∧ decode 0x00000000000000FF = .illegal .unassignedOp
  ∧ decode 0x0000000000000101 = .illegal .reservedBits
  ∧ decode 0x8000000000000003 = .illegal .reservedBits

/-- Decode and encode agree over all words and all commands, and the decoder accepts exactly the
words that the two checks of rules R70 and R72 let through. -/
def Obligations.DecodeInvertsEncode : Prop :=
  (∀ i : Instr, i.wellFormed = true → decode (encode i) = .command i)
  ∧ (∀ (w : Word) (i : Instr), decode w = .command i → w = encode i)
  ∧ (∀ w : Word, wellFormedWord w = true ↔ ∃ i, decode w = .command i)
  ∧ ∀ i : Instr, decodeTableWord 64 (encode i).toNat = some i

/-- A word with `RSV != 0`, and a word with `RSV == 0` and `OP` outside `{1, 2, 3}`, and no other,
spell no command; the decoder names which (rule R72). -/
def Obligations.IllegalWordsNamed : Prop :=
  ∀ w : Word,
    (decode w = .illegal .reservedBits ↔ w.toNat / 256 ≠ 0)
    ∧ (decode w = .illegal .unassignedOp ↔
        w.toNat / 256 = 0 ∧ w.toNat % 256 ∉ [0x01, 0x02, 0x03])

/-- The two symbol tables, code by code: the salt alphabet in its index order (rule R75) and the
lowercase hex digits (rule R76). -/
def Obligations.SymbolTables : Prop :=
  (∀ v : Fin 62,
    (v.val ≤ 9 → (alpha v).toNat = 0x30 + v.val)
    ∧ (10 ≤ v.val ∧ v.val ≤ 35 → (alpha v).toNat = 0x61 + (v.val - 10))
    ∧ (36 ≤ v.val → (alpha v).toNat = 0x41 + (v.val - 36)))
  ∧ ∀ v : BitVec 4,
    (v.toNat ≤ 9 → (hexDigit v).toNat = 0x30 + v.toNat)
    ∧ (10 ≤ v.toNat → (hexDigit v).toNat = 0x61 + (v.toNat - 10))

/-! ### The hash core -/

/-- `ROTR` moves bit `(i + n) mod 64` to bit `i`; `SHR` is the floor of the quotient; `+64` is the
sum modulo `2^64`; `NOT64` inverts every bit (rule R101). -/
def Obligations.WordOperations : Prop :=
  ∀ (x y : Word) (n : Nat), 0 < n → n < 64 →
    (∀ i, i < 64 → (rotr x n).getLsbD i = x.getLsbD ((i + n) % 64))
    ∧ (rotr x n = shr x n ||| BitVec.ofNat 64 (x.toNat * 2 ^ (64 - n)))
    ∧ (shr x n).toNat = x.toNat / 2 ^ n
    ∧ (x + y).toNat = (x.toNat + y.toNat) % 2 ^ 64
    ∧ (~~~x).toNat = 2 ^ 64 - 1 - x.toNat

/-- The two tables of constants from their definition: `IV[i]` is the first 64 bits of the fractional
part of the square root of the `i`-th prime (rule R108), `K[t]` of the cube root of the `t`-th prime
(rule R109). A number below 410, which is less than `21 * 21`, is called prime here if nothing from 2
to 20 and below it divides it; `q` is the integer part of the root. -/
def Obligations.ConstantsFromPrimes : Prop :=
  ∃ primes : List Nat,
    primes = (List.range 410).filter (fun p =>
        decide (2 ≤ p ∧ ∀ d, d < 21 → 2 ≤ d → d < p → p % d ≠ 0))
    ∧ primes.length = 80 ∧ kTable.length = 80
    ∧ (∀ i, i < 8 → ∃ q, q < 5 ∧
        (q * 2 ^ 64 + ([iv.a, iv.b, iv.c, iv.d, iv.e, iv.f, iv.g, iv.h].getD i 0).toNat) ^ 2
          ≤ primes.getD i 0 * 2 ^ 128
        ∧ primes.getD i 0 * 2 ^ 128 <
          (q * 2 ^ 64 + ([iv.a, iv.b, iv.c, iv.d, iv.e, iv.f, iv.g, iv.h].getD i 0).toNat + 1) ^ 2)
    ∧ ∀ t, t < 80 → ∃ q, q < 8 ∧
        (q * 2 ^ 64 + (kTable.getD t 0).toNat) ^ 3 ≤ primes.getD t 0 * 2 ^ 192
        ∧ primes.getD t 0 * 2 ^ 192 < (q * 2 ^ 64 + (kTable.getD t 0).toNat + 1) ^ 3

/-- `Ch` takes the bit of `y` where `x` is 1 and of `z` where it is 0; `Maj` is the value at least
two of the three hold (rules R102, R103). -/
def Obligations.ChooseAndMajorityBits : Prop :=
  ∀ (x y z : Word) (i : Nat),
    (ch x y z).getLsbD i = (if x.getLsbD i then y.getLsbD i else z.getLsbD i)
    ∧ ((maj x y z).getLsbD i = true ↔
        (x.getLsbD i = true ∧ y.getLsbD i = true) ∨ (x.getLsbD i = true ∧ z.getLsbD i = true)
          ∨ (y.getLsbD i = true ∧ z.getLsbD i = true))

/-- Padding: the message, the byte `0x80`, the least number of zero bytes that fills the last block,
and the bit length in 16 big-endian bytes; `NB(L)` blocks in all (rules R110, R120). -/
def Obligations.PaddingFillsBlocks : Prop :=
  ∀ m : Bytes,
    ∃ z : Nat,
      (m.length + 1 + z + 16) % 128 = 0
      ∧ (∀ z', (m.length + 1 + z' + 16) % 128 = 0 → z ≤ z')
      ∧ (pad m).take (m.length + 1 + z) = m ++ 0x80#8 :: List.replicate z 0x00#8
      ∧ ((pad m).drop (m.length + 1 + z)).length = 16
      ∧ beNat ((pad m).drop (m.length + 1 + z)) = 8 * m.length % 2 ^ 128
      ∧ (pad m).length = 128 * blockCount m.length
      ∧ blockCount m.length = (m.length + 16) / 128 + 1

/-- The schedule of a block: the sixteen words, then each word from four earlier ones (rule R112). -/
def Obligations.ScheduleRecurrence : Prop :=
  ∀ m : List Word, m.length = 16 →
    (schedule m).length = 80
    ∧ (∀ t, t < 16 → (schedule m).getD t 0 = m.getD t 0)
    ∧ ∀ t, 16 ≤ t → t ≤ 79 →
        (schedule m).getD t 0 =
          ssig1 ((schedule m).getD (t - 2) 0) + (schedule m).getD (t - 7) 0
            + ssig0 ((schedule m).getD (t - 15) 0) + (schedule m).getD (t - 16) 0

/-- Compression runs rounds 0 to 79 in order with `K[t]` and `W[t]` and adds the chaining value at the
end, word by word (rule R114): there is a run of round variables from `H` that the rounds link, each
round as rule R113 has it, with `T1` and `T2` from the old variables. -/
def Obligations.CompressionRunsEightyRounds : Prop :=
  ∀ (hv : Octet) (m : List Word), m.length = 16 →
    ∃ v : Nat → Octet,
      v 0 = hv
      ∧ (∀ t, t < 80 → ∃ t1 t2,
          t1 = (v t).h + bsig1 (v t).e + ch (v t).e (v t).f (v t).g + kTable.getD t 0
                + (schedule m).getD t 0
          ∧ t2 = bsig0 (v t).a + maj (v t).a (v t).b (v t).c
          ∧ v (t + 1) = ⟨t1 + t2, (v t).a, (v t).b, (v t).c, (v t).d + t1, (v t).e, (v t).f, (v t).g⟩)
      ∧ compress hv m =
          ⟨hv.a + (v 80).a, hv.b + (v 80).b, hv.c + (v 80).c, hv.d + (v 80).d,
           hv.e + (v 80).e, hv.f + (v 80).f, hv.g + (v 80).g, hv.h + (v 80).h⟩

/-- `SHA512`: the chaining value starts from `IV` and takes in the blocks of the padded message in
order, each read as sixteen big-endian words; the hash is the eight words of the last chaining value,
most significant byte first, 64 bytes (rules R111, R115). -/
def Obligations.HashChainsBlocks : Prop :=
  ∀ m : Bytes,
    ∃ (h : Nat → Octet) (mj : Nat → List Word),
      h 0 = iv
      ∧ (∀ j, j < (pad m).length / 128 → h (j + 1) = compress (h j) (mj j))
      ∧ (∀ j, (mj j).length = 16)
      ∧ (∀ j r, j < (pad m).length / 128 → r < 16 → ((mj j).getD r 0).toNat =
          ((List.range 8).map fun q =>
            ((pad m).getD (128 * j + (8 * r + q)) 0).toNat * 2 ^ (8 * (7 - q))).sum)
      ∧ (sha512 m).length = 64
      ∧ ∀ p q, p < 8 → q < 8 →
          (sha512 m).getD (8 * p + q) 0 =
            (([(h ((pad m).length / 128)).a, (h ((pad m).length / 128)).b,
              (h ((pad m).length / 128)).c, (h ((pad m).length / 128)).d,
              (h ((pad m).length / 128)).e, (h ((pad m).length / 128)).f,
              (h ((pad m).length / 128)).g, (h ((pad m).length / 128)).h].getD p 0)).extractLsb'
                (56 - 8 * q) 8

/-- The hash of `"abc"`, the standard's example (rule R118). -/
def Obligations.HashOfAbc : Prop :=
  (hashBlocks [0x61, 0x62, 0x63]) =
    ⟨0xddaf35a193617aba, 0xcc417349ae204131, 0x12e6fa4e89a97ea2, 0x0a9eeee64b55d39a,
     0x2192992a274fc1a8, 0x36ba3c23a3feebbd, 0x454d4423643ce80e, 0x2a9ac94fa54ca49f⟩

/-- `HexEnc`, index by index: high nibble first, and only the bytes of lowercase hex digits
(rule R117). -/
def Obligations.HexEncodesNibbles : Prop :=
  ∀ d : Bytes,
    (hexEnc d).length = 2 * d.length
    ∧ (∀ q, q < d.length →
        (hexEnc d).getD (2 * q) 0 = hexDigit ((d.getD q 0).extractLsb' 4 4)
        ∧ (hexEnc d).getD (2 * q + 1) 0 = hexDigit ((d.getD q 0).extractLsb' 0 4))
    ∧ ∀ b, b ∈ hexEnc d → (0x30 ≤ b.toNat ∧ b.toNat ≤ 0x39) ∨ (0x61 ≤ b.toNat ∧ b.toNat ≤ 0x66)

/-- The stretch: twenty chained applications, the first to `secret || salt`, each later one to the
128-byte hex text of the one before and to nothing else (rules R132, R133). -/
def Obligations.StretchChainsTwentyHashes : Prop :=
  ∀ secret salt : Bytes,
    ∃ digest : Nat → Bytes,
      digest 1 = hexEnc (sha512 (secret ++ salt))
      ∧ (∀ k, 1 ≤ k → k < 20 → digest (k + 1) = hexEnc (sha512 (digest k)))
      ∧ (∀ k, 1 ≤ k → k ≤ 20 →
          (digest k).length = 128
          ∧ ∀ b, b ∈ digest k →
              (0x30 ≤ b.toNat ∧ b.toNat ≤ 0x39) ∨ (0x61 ≤ b.toNat ∧ b.toNat ≤ 0x66))
      ∧ stretch secret salt = digest 20

/-! ### The comparator -/

/-- `SlowEquals` answers whether its two strings are equal, and is symmetric; then the corner cases
that rule R165 lists. -/
def Obligations.SlowEqualsDecidesEquality : Prop :=
  (∀ a b : Bytes, a.length < 2 ^ 64 → b.length < 2 ^ 64 →
    ((slowEquals a b).1 = true ↔ a = b) ∧ slowEquals a b = slowEquals b a)
  ∧ slowEquals [] [] = (true, 0)
  ∧ slowEquals [] [0x61] = (false, 0)
  ∧ slowEquals [0x61, 0x62] [0x62, 0x61] = (false, 2)
  ∧ slowEquals [0xff] [0x00] = (false, 1)
  ∧ slowEquals [0x01, 0x02, 0x04] [0x00, 0x00, 0x00] = (false, 3)

/-- The comparisons the loop makes are `min(len(a), len(b))` in number, so any two pairs of strings
of the same lengths take the same number; and the count is what `CMPCNT` reports after a command that
compares (rule R163). -/
def Obligations.SlowEqualsCountsMinLength : Prop :=
  (∀ a b : Bytes,
    (slowEquals a b).2 = min a.length b.length
    ∧ ∀ a' b' : Bytes, a'.length = a.length → b'.length = b.length →
        (slowEquals a' b').2 = (slowEquals a b).2)
  ∧ ∀ s : State, secTooLong s = false → digTooLong s = false →
      (∃ t, exec .cmpeq s = .next t
        ∧ t.cmpcnt.toNat = (slowEquals (secretOf s) (storedOf s)).2)
      ∧ ∃ t, exec .verify s = .next t
        ∧ t.cmpcnt.toNat =
            (slowEquals (reconstruct (secretOf s) (storedOf s)) (storedOf s)).2

/-! ### The commands -/

/-- HASH completes when the secret fits and no draw fails, with the results of rule R135 and nothing
else changed: the salt drawn and its stretch in `DIG[0:149]`, every other byte of `DIG` as before,
`DLEN = 149`, `STATUS = 0x01`, `CMPCNT = 0`, the secret gone. -/
def Obligations.HashCompletes : Prop :=
  ∀ (s : State) (v : Nat → Fin 62), s.Legal → secTooLong s = false → s.drawsSalt v →
    ∃ t, exec .hash s = .next t
      ∧ (∀ i, i < 21 → t.dig.read i = alpha (v i))
      ∧ (∀ i, i < 128 → t.dig.read (21 + i) =
          (stretch (secretOf s) ((List.range 21).map t.dig.read)).getD i 0)
      ∧ (∀ off, 149 ≤ off → t.dig.read off = s.dig.read off)
      ∧ t.dlen = 149 ∧ t.status = 0x01 ∧ matchBit t.status = false ∧ t.cmpcnt = 0
      ∧ (∀ off, t.sec.read off = 0) ∧ t.slen = 0 ∧ t.phase = .idle
      ∧ t.secMax = s.secMax ∧ t.digMax = s.digMax

/-- HASH in error: no byte of `DIG` is written, `DLEN` and `CMPCNT` become 0, `STATUS` is `0x11` for a
failed draw and `0x31` for a length, the secret is gone, and nothing else changes (rule R136). -/
def Obligations.HashErrorLeavesNoDigest : Prop :=
  ∀ s : State,
    ((∃ m, secTooLong s = false ∧ s.drawsFailAt m) ∨ secTooLong s = true) →
    ∃ t, exec .hash s = .next t
      ∧ (secTooLong s = false → t.status = 0x11) ∧ (secTooLong s = true → t.status = 0x31)
      ∧ t.dlen = 0 ∧ t.cmpcnt = 0
      ∧ t.dig = s.dig ∧ (∀ off, t.sec.read off = 0) ∧ t.slen = 0 ∧ t.phase = .idle
      ∧ t.secMax = s.secMax ∧ t.digMax = s.digMax

/-- What HASH takes from the entropy device (rules R130, R206), in the model's own fields for the world
around a context (log 4): 21 requests when none fails; none after the first that fails; none at all
when the length is in error. Every answer taken is the next one listed. -/
def Obligations.HashTakesItsDraws : Prop :=
  ∀ s : State,
    ∃ t, exec .hash s = .next t
      ∧ t.inputs = s.inputs ∧ t.replies = s.replies ∧ t.stream = s.stream
      ∧ (secTooLong s = true → t.entropy = s.entropy ∧ t.draws = s.draws)
      ∧ (∀ v, secTooLong s = false → s.drawsSalt v →
          t.entropy = s.entropy.drop 21 ∧ t.draws = s.draws + 21)
      ∧ ∀ m, secTooLong s = false → s.drawsFailAt m →
          t.entropy = s.entropy.drop (m + 1) ∧ t.draws = s.draws + (m + 1)

/-- VERIFY completes whenever both lengths fit, whatever the bytes: `MATCH` says whether the
reconstructed string is the stored one, `CMPCNT = min(149, DLEN)`, the secret is gone, and nothing
else changes, `DIG` and `DLEN` among it (rule R153). -/
def Obligations.VerifyCompletes : Prop :=
  ∀ s : State, secTooLong s = false → digTooLong s = false →
    ∃ t, exec .verify s = .next t
      ∧ (reconstruct (secretOf s) (storedOf s) = storedOf s → t.status = 0x03)
      ∧ (reconstruct (secretOf s) (storedOf s) ≠ storedOf s → t.status = 0x01)
      ∧ t.cmpcnt = BitVec.ofNat 64 (min 149 s.dlen.toNat)
      ∧ (∀ off, t.sec.read off = 0) ∧ t.slen = 0 ∧ t.phase = .idle
      ∧ t.dig = s.dig ∧ t.dlen = s.dlen
      ∧ t.secMax = s.secMax ∧ t.digMax = s.digMax ∧ t.world = s.world

/-- What VERIFY answers, by the length `D` of the stored string: only a string of 149 bytes can
match, and it does exactly when its last 128 bytes are the stretch of the secret with its first 21.
The salt used is the first 21 bytes, or all of them where there are fewer (rules R150, R154). -/
def Obligations.VerifyOutcomeByLength : Prop :=
  ∀ s : State, secTooLong s = false → digTooLong s = false →
    ∃ t, exec .verify s = .next t
      ∧ (matchBit t.status = true ↔
          s.dlen.toNat = 149
          ∧ ∀ i, i < 128 → s.dig.read (21 + i)
              = (stretch (secretOf s) ((List.range 21).map s.dig.read)).getD i 0)
      ∧ (s.dlen.toNat < 149 → t.cmpcnt = s.dlen ∧ t.status = 0x01)
      ∧ (s.dlen.toNat = 149 → t.cmpcnt = 149)
      ∧ (149 < s.dlen.toNat → t.cmpcnt = 149 ∧ t.status = 0x01)
      ∧ extractSalt (storedOf s) = (List.range (min 21 s.dlen.toNat)).map s.dig.read
      ∧ (reconstruct (secretOf s) (storedOf s)).length = min 21 s.dlen.toNat + 128

/-- CMPEQ completes whenever both lengths fit: `MATCH` says whether the two strings have the same
length and the same byte at every index, `CMPCNT = min(SLEN, DLEN)`, and nothing else changes: no
buffer, no length (rule R164). -/
def Obligations.CmpeqCompletes : Prop :=
  ∀ s : State, secTooLong s = false → digTooLong s = false →
    ∃ t, exec .cmpeq s = .next t
      ∧ (s.slen = s.dlen ∧ (∀ i, i < s.slen.toNat → s.sec.read i = s.dig.read i) → t.status = 0x03)
      ∧ (¬(s.slen = s.dlen ∧ ∀ i, i < s.slen.toNat → s.sec.read i = s.dig.read i) →
          t.status = 0x01)
      ∧ t.cmpcnt = BitVec.ofNat 64 (min s.slen.toNat s.dlen.toNat)
      ∧ t.sec = s.sec ∧ t.slen = s.slen ∧ t.dig = s.dig ∧ t.dlen = s.dlen ∧ t.phase = .idle
      ∧ t.secMax = s.secMax ∧ t.digMax = s.digMax ∧ t.world = s.world

/-- A length beyond the capacity of its buffer ends each command with code 3, before anything is
read or drawn (rule R204): HASH looks at `SLEN`, VERIFY and CMPEQ at both lengths; HASH clears
`DLEN`, HASH and VERIFY the secret, CMPEQ nothing. Nothing else ends a command with code 3. -/
def Obligations.LengthErrorCompletes : Prop :=
  ∀ (s : State) (i : Instr),
    (secTooLong s = true ↔ ∃ n, s.secMax = .bounded n ∧ n < s.slen.toNat)
    ∧ (digTooLong s = true ↔ ∃ n, s.digMax = .bounded n ∧ n < s.dlen.toNat)
    ∧ (secTooLong s = true ∨ (digTooLong s = true ∧ i ≠ .hash) →
        ∃ t, exec i s = .next t
          ∧ t.status = 0x31 ∧ t.cmpcnt = 0 ∧ t.phase = .idle
          ∧ (i = .hash → t.dlen = 0) ∧ (i ≠ .hash → t.dlen = s.dlen)
          ∧ (i ≠ .cmpeq → (∀ off, t.sec.read off = 0) ∧ t.slen = 0)
          ∧ (i = .cmpeq → t.sec = s.sec ∧ t.slen = s.slen)
          ∧ t.dig = s.dig ∧ t.secMax = s.secMax ∧ t.digMax = s.digMax ∧ t.world = s.world)
    ∧ (¬(secTooLong s = true ∨ (digTooLong s = true ∧ i ≠ .hash)) →
        ∃ t, exec i s = .next t ∧ errField t.status ≠ 3)

/-- An illegal word completes with code 2 and changes nothing but `STATUS`, `CMPCNT` and the phase;
nothing is drawn and a port operation that waits stays held (rule R203). -/
def Obligations.IllegalWordCompletes : Prop :=
  ∀ (s : State) (why : IllegalWord), s.phase = .run → resetPending s = false →
    decode s.cmdlatch = .illegal why →
    ∃ t, step s = .next t
      ∧ t.status = 0x21 ∧ t.cmpcnt = 0 ∧ t.phase = .idle
      ∧ t.sec = s.sec ∧ t.slen = s.slen ∧ t.dig = s.dig ∧ t.dlen = s.dlen
      ∧ t.secMax = s.secMax ∧ t.digMax = s.digMax
      ∧ t.entropy = s.entropy ∧ t.draws = s.draws ∧ t.replies = s.replies

/-- After any HASH or VERIFY, in error or not, every byte of `SEC` is `0x00` and `SLEN` is 0; CMPEQ and
an illegal word leave both (rule R43). -/
def Obligations.SecretZeroised : Prop :=
  ∀ s : State,
    (∀ i : Instr, i ≠ .cmpeq →
      ∃ t, exec i s = .next t ∧ (∀ off, t.sec.read off = 0) ∧ t.slen = 0)
    ∧ (∃ t, exec .cmpeq s = .next t ∧ t.sec = s.sec ∧ t.slen = s.slen)
    ∧ ∀ why, s.phase = .run → resetPending s = false → decode s.cmdlatch = .illegal why →
        ∃ t, step s = .next t ∧ t.sec = s.sec ∧ t.slen = s.slen

/-- The frame of the commands in every state: capacities, the host's script and its answers never
change; VERIFY and CMPEQ write neither `DIG` nor `DLEN` and draw nothing; HASH leaves every byte of
`DIG` from offset 149 on, and all of them when it ends in an error (rules R33, R68). -/
def Obligations.CommandFrame : Prop :=
  ∀ (s : State) (i : Instr), s.Legal →
    ∃ t, exec i s = .next t
      ∧ t.secMax = s.secMax ∧ t.digMax = s.digMax ∧ t.inputs = s.inputs ∧ t.replies = s.replies
      ∧ t.stream = s.stream ∧ t.phase = .idle
      ∧ (i ≠ .hash → t.dig = s.dig ∧ t.dlen = s.dlen ∧ t.world = s.world)
      ∧ (i = .hash → ∀ off, 149 ≤ off → t.dig.read off = s.dig.read off)
      ∧ (errField t.status ≠ 0 → t.dig = s.dig)

/-- The round trip (rule R137): what HASH left in `DIG`, presented to VERIFY with the same secret
loaded again, verifies, whatever else the host did to the context in between. -/
def Obligations.HashThenVerifyMatches : Prop :=
  ∀ (s : State) (v : Nat → Fin 62), s.Legal → secTooLong s = false → s.drawsSalt v →
    ∃ t, exec .hash s = .next t
      ∧ ∀ u : State, u.slen = s.slen → (∀ i, i < s.slen.toNat → u.sec.read i = s.sec.read i) →
          u.dlen = t.dlen → (∀ i, i < 149 → u.dig.read i = t.dig.read i) →
          u.secMax = s.secMax → u.digMax = s.digMax →
          ∃ r, exec .verify u = .next r ∧ r.status = 0x03 ∧ r.cmpcnt = 149

/-- The exact rejections of rule R156: a stored string that verifies, with any byte of its hex part
changed and its salt untouched, or with any other length, does not verify for the same secret. -/
def Obligations.VerifyRejectsChangedDigest : Prop :=
  ∀ s t u : State, exec .verify s = .next t → matchBit t.status = true →
    u.slen = s.slen → (∀ i, i < s.slen.toNat → u.sec.read i = s.sec.read i) →
    u.secMax = s.secMax → digTooLong u = false →
    ((u.dlen = s.dlen ∧ (∀ i, i < 21 → u.dig.read i = s.dig.read i)
        ∧ ∃ i, 21 ≤ i ∧ i < 149 ∧ u.dig.read i ≠ s.dig.read i)
      ∨ u.dlen ≠ s.dlen) →
    ∃ r, exec .verify u = .next r ∧ r.status = 0x01

/-- Bytes beyond the lengths, the results of earlier commands and the working registers are never
read: two contexts with the same operands and the same entropy to come give the same results, and
draw the same (rules R35, R39, R68). -/
def Obligations.OnlyOperandsAreRead : Prop :=
  ∀ (s u : State) (i : Instr), s.Legal → u.Legal → SameOperands s u → u.world = s.world →
    ∃ t r, exec i s = .next t ∧ exec i u = .next r
      ∧ r.status = t.status ∧ r.cmpcnt = t.cmpcnt ∧ r.slen = t.slen ∧ r.dlen = t.dlen
      ∧ r.phase = t.phase ∧ r.world = t.world
      ∧ (i = .hash → errField t.status = 0 → ∀ j, j < 149 → r.dig.read j = t.dig.read j)

/-- `CMPCNT` and `ERR` after VERIFY and CMPEQ are functions of the two lengths and the capacities: no
byte of `SEC` or `DIG` has a say (rules R155, R163). -/
def Obligations.CountIgnoresContents : Prop :=
  ∀ (s u : State) (i : Instr), i ≠ .hash → u.slen = s.slen → u.dlen = s.dlen →
    u.secMax = s.secMax → u.digMax = s.digMax →
    ∃ t r, exec i s = .next t ∧ exec i u = .next r
      ∧ r.cmpcnt = t.cmpcnt ∧ errField r.status = errField t.status
      ∧ doneBit r.status = true ∧ doneBit t.status = true

/-! ### The port and the step -/

/-- In phase RUN, with no reset striking, the step is the decoded command's completion, on the state
whose next outside move has passed if it was a wait and is held if it was a port operation (the
model's script of the outside world, log 2); and a command word placed by `withFetchWord` is what the
very next step runs (log 12). -/
def Obligations.StepRunsLatchedCommand : Prop :=
  (∀ (s : State) (i : Instr), i.wellFormed = true → s.phase = .run → resetPending s = false →
    decode s.cmdlatch = .command i → step s = exec i (passWait s))
  ∧ ∀ (s : State) (i : Instr),
      step (s.withFetchWord 64 (encode i).toNat)
        = exec i (passWait (s.withFetchWord 64 (encode i).toNat))

/-- Every state has a next state; in phase RUN the step ends in phase IDLE, by the completion of the
command (rule R185) or by a reset that strikes first (rule R240). That every state has a next state is
the model's choice, no rule's: an idle context with an empty script steps to itself, the form the model
gives the waiting of rule R215 (log 9, DESIGN CHOICE); nothing faults or refuses (rule R11; log 13,
DEDUCED); and the entropy device always answers (rule R213 (c); log 4, DESIGN CHOICE). -/
def Obligations.EveryCommandTerminates : Prop :=
  ∀ s : State, ∃ t, step s = .next t ∧ (s.phase = .run → t.phase = .idle)

/-- A write to `CMD` in phase IDLE latches the word and starts the command; it changes nothing else
(rule R184). -/
def Obligations.WriteToCmdIssues : Prop :=
  ∀ (s : State) (v : Word) (rest : List Input), s.phase = .idle →
    s.inputs = .port (.wrr 0 v) :: rest →
    ∃ t, step s = .next t ∧ t = { s with cmdlatch := v, phase := .run, inputs := rest }

/-- A port operation issued in phase RUN is held: the step completes the command, the operation is
still the next to come and nothing has been answered; what the command did is what it would have
done had the host issued nothing; and the step after that is the operation, on the completed state
(rule R186). -/
def Obligations.PortOperationHeld : Prop :=
  ∀ (s : State) (op : PortOp) (rest : List Input), s.phase = .run →
    s.inputs = .port op :: rest →
    ∃ t r, step s = .next t ∧ step { s with inputs := [] } = .next r
      ∧ t.phase = .idle ∧ t.inputs = s.inputs ∧ t.replies = s.replies ∧ t.view = r.view
      ∧ t.entropy = r.entropy ∧ t.draws = r.draws
      ∧ step t = .next (portOp op { t with inputs := rest })

/-- The first `RDR STATUS` after a write to `CMD` answers the status of that command, which is done
(rule R186). -/
def Obligations.FirstReadSeesCompletion : Prop :=
  ∀ (s : State) (w : Word) (rest : List Input), s.phase = .idle →
    s.inputs = .port (.wrr 0 w) :: .port (.rdr 1) :: rest →
    ∃ s1 s2 s3, step s = .next s1 ∧ step s1 = .next s2 ∧ step s2 = .next s3
      ∧ s2.phase = .idle ∧ doneBit s2.status = true
      ∧ s3.view = s2.view ∧ s3.inputs = rest ∧ s3.replies = s.replies ++ [.word s2.status]

/-- `RDR n`, for every `n`: the value of rule R180, and no state written. -/
def Obligations.ReadRegister : Prop :=
  ∀ (s : State) (n : Nat) (rest : List Input), s.phase = .idle →
    s.inputs = .port (.rdr n) :: rest →
    ∃ t value, step s = .next t
      ∧ t = { s with inputs := rest, replies := s.replies ++ [.word value] }
      ∧ (n = 0 → value = 0) ∧ (n = 1 → value = s.status) ∧ (n = 2 → value = s.slen)
      ∧ (n = 3 → value = s.dlen) ∧ (n = 4 → value = s.cmpcnt) ∧ (n = 5 → value = 21)
      ∧ (n = 6 → value = 20)
      ∧ (n = 7 → (∀ c, s.secMax = .bounded c → value.toNat = min c (2 ^ 64 - 1))
          ∧ (s.secMax = .unbounded → value.toNat = 2 ^ 64 - 1))
      ∧ (n = 8 → (∀ c, s.digMax = .bounded c → value.toNat = min c (2 ^ 64 - 1))
          ∧ (s.digMax = .unbounded → value.toNat = 2 ^ 64 - 1))
      ∧ (9 ≤ n → value = 0)

/-- `WRR n, v`, for every `n`: `CMD` issues, `SLEN` and `DLEN` store any value, every other write does
nothing (rule R181). -/
def Obligations.WriteRegister : Prop :=
  ∀ (s : State) (n : Nat) (v : Word) (rest : List Input), s.phase = .idle →
    s.inputs = .port (.wrr n v) :: rest →
    ∃ t, step s = .next t
      ∧ (n = 0 → t = { s with inputs := rest, cmdlatch := v, phase := .run })
      ∧ (n = 2 → t = { s with inputs := rest, slen := v })
      ∧ (n = 3 → t = { s with inputs := rest, dlen := v })
      ∧ (n = 1 ∨ 4 ≤ n → t = { s with inputs := rest })

/-- `WRB` stores one byte where the offset is below the capacity, and no other byte of either buffer,
no register and no length changes; `RDB` of that byte then answers it (rules R182, R183). -/
def Obligations.ByteWriteThenRead : Prop :=
  ∀ (s : State) (space : Space) (off : Nat) (v : Byte) (rest : List Input), s.Legal →
    s.phase = .idle → (s.capacity space).covers off = true →
    s.inputs = .port (.wrb space off v) :: .port (.rdb space off) :: rest →
    ∃ t r, step s = .next t ∧ step t = .next r
      ∧ (t.buffer space).read off = v
      ∧ (∀ o, o ≠ off → (t.buffer space).read o = (s.buffer space).read o)
      ∧ (∀ other, other ≠ space → t.buffer other = s.buffer other)
      ∧ t.status = s.status ∧ t.slen = s.slen ∧ t.dlen = s.dlen ∧ t.cmpcnt = s.cmpcnt
      ∧ t.phase = s.phase ∧ t.secMax = s.secMax ∧ t.digMax = s.digMax
      ∧ t.entropy = s.entropy ∧ t.replies = s.replies
      ∧ r = { t with inputs := rest, replies := s.replies ++ [.byte v] }

/-- Out of range: RDR of a register above 8 and RDB at or above the capacity answer 0, WRR and WRB
there are ignored; none changes any state or reports an error (rule R62). -/
def Obligations.OutOfRangeIgnored : Prop :=
  ∀ (s : State) (op : PortOp) (rest : List Input), s.phase = .idle →
    s.inputs = .port op :: rest →
    (∀ n, op = .rdr n → 9 ≤ n →
      step s = .next { s with inputs := rest, replies := s.replies ++ [.word 0] })
    ∧ (∀ n v, op = .wrr n v → 9 ≤ n → step s = .next { s with inputs := rest })
    ∧ (∀ space off, op = .rdb space off → (s.capacity space).covers off = false →
        step s = .next { s with inputs := rest, replies := s.replies ++ [.byte 0] })
    ∧ ∀ space off v, op = .wrb space off v → (s.capacity space).covers off = false →
        step s = .next { s with inputs := rest }

/-- With nothing to come the context waits (rule R215); a wait of the script passes and changes nothing
else (log 2, log 9). -/
def Obligations.IdleContextWaits : Prop :=
  ∀ s : State, s.phase = .idle →
    (s.inputs = [] → step s = .next s)
    ∧ ∀ rest, s.inputs = .wait :: rest → step s = .next { s with inputs := rest }

/-- `STATUS` and `CMPCNT` are written by completions and by reset and by nothing else: an outside move
in phase IDLE that is no reset leaves them, and leaves the entropy device alone (rules R23, R26,
R39). -/
def Obligations.OnlyCompletionsWriteStatus : Prop :=
  ∀ s t : State, step s = .next t → (t.status ≠ s.status ∨ t.cmpcnt ≠ s.cmpcnt
      ∨ t.entropy ≠ s.entropy ∨ t.draws ≠ s.draws) →
    s.phase = .run ∨ resetPending s = true

/-! ### Reset and the legal states -/

/-- The reset state of rule R41: registers 0 but for the hardwired ones, every buffer byte `0x00`,
phase IDLE. What the spec leaves unspecified there (`cmdlatch`, the working registers) is not
stated. -/
def Obligations.ResetStateValues : Prop :=
  State.reset.status = 0 ∧ State.reset.slen = 0 ∧ State.reset.dlen = 0 ∧ State.reset.cmpcnt = 0
  ∧ (∀ off, State.reset.sec.read off = 0) ∧ (∀ off, State.reset.dig.read off = 0)
  ∧ State.reset.phase = .idle
  ∧ readReg 0 State.reset = 0 ∧ readReg 5 State.reset = 21 ∧ readReg 6 State.reset = 20
  ∧ (readReg 7 State.reset).toNat =
      (match Config.secMax with | .bounded n => min n (2 ^ 64 - 1) | .unbounded => 2 ^ 64 - 1)
  ∧ (readReg 8 State.reset).toNat =
      (match Config.digMax with | .bounded n => min n (2 ^ 64 - 1) | .unbounded => 2 ^ 64 - 1)

/-- A reset strikes in either phase: the context is in the reset state, a running command is abandoned
with none of its results and no reply is made; the capacities stay. Entropy that a running HASH had
drawn is lost: at most its 21 answers, and none where no HASH runs (rules R240, R241); how many is free
(log 15). -/
def Obligations.ResetAbandonsCommand : Prop :=
  ∀ (s : State) (rest : List Input), s.inputs = .reset :: rest →
    ∃ t, step s = .next t
      ∧ t.status = 0 ∧ t.slen = 0 ∧ t.dlen = 0 ∧ t.cmpcnt = 0
      ∧ (∀ off, t.sec.read off = 0) ∧ (∀ off, t.dig.read off = 0) ∧ t.phase = .idle
      ∧ t.secMax = s.secMax ∧ t.digMax = s.digMax
      ∧ t.stream = s.stream ∧ t.inputs = rest ∧ t.replies = s.replies
      ∧ ∃ n, n ≤ 21 ∧ t.entropy = s.entropy.drop n ∧ t.draws = s.draws + n
          ∧ (s.phase = .idle ∨ decode s.cmdlatch ≠ .command .hash → n = 0)

/-- The reset state is legal, whatever capacities the device has within rule R5. -/
def Obligations.LegalAtReset : Prop := State.reset.Legal

/-- Every step keeps a legal state legal: buffers canonical and within their capacities, `STATUS` one
of its six values (rule R23), no count left by a command that compared nothing (rule R26). -/
def Obligations.StepKeepsLegal : Prop :=
  ∀ s t : State, s.Legal → step s = .next t → t.Legal

/-! ### The internal level -/

/-- The sequencer agrees with the architectural level: from any working registers, the internal walk
of a latched command, as many steps long as its lengths say or longer, ends in the very state the one
atomic step gives, error completions included (rules R6, R35, R38). How fine the internal steps are is
the model's choice (log 14). -/
def Obligations.SequencerAgrees : Prop :=
  ∀ (s : State) (i : Instr) (n : Nat), s.phase = .run → decode s.cmdlatch = .command i →
    (walk i s.slen.toNat s.dlen.toNat).length ≤ n →
    exec i s = .next (seqRun n (seqStart s))

/-- The positions a command visits, when it ends in no error, are the walk that its two lengths alone
give: no byte of `SEC` or `DIG` has a say (rules R155, R162, R251). How fine the positions are is rule
R38's, how fine the steps between them the model's choice (log 14). -/
def Obligations.WalkDependsOnLengthsAlone : Prop :=
  ∀ (s : State) (i : Instr) (n : Nat) (v : Nat → Fin 62), s.phase = .run →
    decode s.cmdlatch = .command i → secTooLong s = false → (i ≠ .hash → digTooLong s = false) →
    (i = .hash → s.drawsSalt v) →
    (walk i s.slen.toNat s.dlen.toNat).length ≤ n →
    seqTrace n (seqStart s) = walk i s.slen.toNat s.dlen.toNat

/-- The step counts of the commands as functions of the lengths (rules R140, R250). -/
def Obligations.StepCountsOfCommands : Prop :=
  ∀ slen dlen : Nat,
    (countDraws (walk .hash slen dlen) = 21 ∧ countHashes (walk .hash slen dlen) = 20
      ∧ countCompressions (walk .hash slen dlen) = blockCount (slen + 21) + 38
      ∧ countRounds (walk .hash slen dlen) = 80 * (blockCount (slen + 21) + 38)
      ∧ countComparisons (walk .hash slen dlen) = 0)
    ∧ (countDraws (walk .verify slen dlen) = 0 ∧ countHashes (walk .verify slen dlen) = 20
      ∧ countCompressions (walk .verify slen dlen) = blockCount (slen + min 21 dlen) + 38
      ∧ countRounds (walk .verify slen dlen) = 80 * (blockCount (slen + min 21 dlen) + 38)
      ∧ countComparisons (walk .verify slen dlen) = min 149 dlen)
    ∧ (countDraws (walk .cmpeq slen dlen) = 0 ∧ countHashes (walk .cmpeq slen dlen) = 0
      ∧ countCompressions (walk .cmpeq slen dlen) = 0 ∧ countRounds (walk .cmpeq slen dlen) = 0
      ∧ countComparisons (walk .cmpeq slen dlen) = min slen dlen)

/-! ### Contexts -/

/-- Contexts are independent: a step of context `k` that is no reset leaves every other context as it
was and gives context `k` what it would do alone; a reset puts every other context into its reset
state (rules R214, R240). The list of contexts is the model's form of the product (log 1). -/
def Obligations.ContextsIndependent : Prop :=
  ∀ (cs : System) (k : Nat) (c c' : State), cs[k]? = some c → step c = .next c' →
    ∃ ds, System.step k cs = .next ds ∧ ds.length = cs.length ∧ ds[k]? = some c'
      ∧ (resetPending c = false → ∀ j, j ≠ k → ds[j]? = cs[j]?)
      ∧ (resetPending c = true → ∀ j d, j ≠ k → cs[j]? = some d → ds[j]? = some (resetEvent d))
end

