-- ==== Sys2Proof/Laws/State.lean ====
section
/-!
SUPPORT. What each shared operation does to each field of the state, field by field, so that no later
proof unfolds a record update.
-/

namespace Sys2Proof.Machine

/-! ### `complete` -/

@[simp] theorem complete_status (status cmpcnt : Word) (s : State) :
    (complete status cmpcnt s).status = status := rfl

@[simp] theorem complete_slen (status cmpcnt : Word) (s : State) :
    (complete status cmpcnt s).slen = s.slen := rfl

@[simp] theorem complete_dlen (status cmpcnt : Word) (s : State) :
    (complete status cmpcnt s).dlen = s.dlen := rfl

@[simp] theorem complete_cmpcnt (status cmpcnt : Word) (s : State) :
    (complete status cmpcnt s).cmpcnt = cmpcnt := rfl

@[simp] theorem complete_sec (status cmpcnt : Word) (s : State) :
    (complete status cmpcnt s).sec = s.sec := rfl

@[simp] theorem complete_dig (status cmpcnt : Word) (s : State) :
    (complete status cmpcnt s).dig = s.dig := rfl

@[simp] theorem complete_phase (status cmpcnt : Word) (s : State) :
    (complete status cmpcnt s).phase = Phase.idle := rfl

@[simp] theorem complete_cmdlatch (status cmpcnt : Word) (s : State) :
    (complete status cmpcnt s).cmdlatch = Config.latchLeft s.stream s.fresh := rfl

@[simp] theorem complete_work (status cmpcnt : Word) (s : State) :
    (complete status cmpcnt s).work = Config.workLeft s.stream s.fresh := rfl

@[simp] theorem complete_secMax (status cmpcnt : Word) (s : State) :
    (complete status cmpcnt s).secMax = s.secMax := rfl

@[simp] theorem complete_digMax (status cmpcnt : Word) (s : State) :
    (complete status cmpcnt s).digMax = s.digMax := rfl

@[simp] theorem complete_entropy (status cmpcnt : Word) (s : State) :
    (complete status cmpcnt s).entropy = s.entropy := rfl

@[simp] theorem complete_stream (status cmpcnt : Word) (s : State) :
    (complete status cmpcnt s).stream = s.stream := rfl

@[simp] theorem complete_draws (status cmpcnt : Word) (s : State) :
    (complete status cmpcnt s).draws = s.draws := rfl

@[simp] theorem complete_inputs (status cmpcnt : Word) (s : State) :
    (complete status cmpcnt s).inputs = s.inputs := rfl

@[simp] theorem complete_replies (status cmpcnt : Word) (s : State) :
    (complete status cmpcnt s).replies = s.replies := rfl

@[simp] theorem complete_fresh (status cmpcnt : Word) (s : State) :
    (complete status cmpcnt s).fresh = s.fresh + 1 := rfl

/-! ### `raise` -/

@[simp] theorem raise_status (e : ErrorCode) (s : State) : (raise e s).status = errorStatus e := rfl

@[simp] theorem raise_slen (e : ErrorCode) (s : State) : (raise e s).slen = s.slen := rfl

@[simp] theorem raise_dlen (e : ErrorCode) (s : State) : (raise e s).dlen = s.dlen := rfl

@[simp] theorem raise_cmpcnt (e : ErrorCode) (s : State) : (raise e s).cmpcnt = 0 := rfl

@[simp] theorem raise_sec (e : ErrorCode) (s : State) : (raise e s).sec = s.sec := rfl

@[simp] theorem raise_dig (e : ErrorCode) (s : State) : (raise e s).dig = s.dig := rfl

@[simp] theorem raise_phase (e : ErrorCode) (s : State) : (raise e s).phase = Phase.idle := rfl

@[simp] theorem raise_cmdlatch (e : ErrorCode) (s : State) :
    (raise e s).cmdlatch = Config.latchLeft s.stream s.fresh := rfl

@[simp] theorem raise_work (e : ErrorCode) (s : State) :
    (raise e s).work = Config.workLeft s.stream s.fresh := rfl

@[simp] theorem raise_secMax (e : ErrorCode) (s : State) : (raise e s).secMax = s.secMax := rfl

@[simp] theorem raise_digMax (e : ErrorCode) (s : State) : (raise e s).digMax = s.digMax := rfl

@[simp] theorem raise_entropy (e : ErrorCode) (s : State) : (raise e s).entropy = s.entropy := rfl

@[simp] theorem raise_stream (e : ErrorCode) (s : State) : (raise e s).stream = s.stream := rfl

@[simp] theorem raise_draws (e : ErrorCode) (s : State) : (raise e s).draws = s.draws := rfl

@[simp] theorem raise_inputs (e : ErrorCode) (s : State) : (raise e s).inputs = s.inputs := rfl

@[simp] theorem raise_replies (e : ErrorCode) (s : State) : (raise e s).replies = s.replies := rfl

@[simp] theorem raise_fresh (e : ErrorCode) (s : State) : (raise e s).fresh = s.fresh + 1 := rfl

/-! ### `zeroiseSecret` -/

@[simp] theorem zeroiseSecret_status (s : State) : (zeroiseSecret s).status = s.status := rfl

@[simp] theorem zeroiseSecret_slen (s : State) : (zeroiseSecret s).slen = 0 := rfl

@[simp] theorem zeroiseSecret_dlen (s : State) : (zeroiseSecret s).dlen = s.dlen := rfl

@[simp] theorem zeroiseSecret_cmpcnt (s : State) : (zeroiseSecret s).cmpcnt = s.cmpcnt := rfl

@[simp] theorem zeroiseSecret_sec (s : State) : (zeroiseSecret s).sec = Memory.zeros := rfl

@[simp] theorem zeroiseSecret_dig (s : State) : (zeroiseSecret s).dig = s.dig := rfl

@[simp] theorem zeroiseSecret_phase (s : State) : (zeroiseSecret s).phase = s.phase := rfl

@[simp] theorem zeroiseSecret_cmdlatch (s : State) : (zeroiseSecret s).cmdlatch = s.cmdlatch := rfl

@[simp] theorem zeroiseSecret_work (s : State) : (zeroiseSecret s).work = s.work := rfl

@[simp] theorem zeroiseSecret_secMax (s : State) : (zeroiseSecret s).secMax = s.secMax := rfl

@[simp] theorem zeroiseSecret_digMax (s : State) : (zeroiseSecret s).digMax = s.digMax := rfl

@[simp] theorem zeroiseSecret_entropy (s : State) : (zeroiseSecret s).entropy = s.entropy := rfl

@[simp] theorem zeroiseSecret_stream (s : State) : (zeroiseSecret s).stream = s.stream := rfl

@[simp] theorem zeroiseSecret_draws (s : State) : (zeroiseSecret s).draws = s.draws := rfl

@[simp] theorem zeroiseSecret_inputs (s : State) : (zeroiseSecret s).inputs = s.inputs := rfl

@[simp] theorem zeroiseSecret_replies (s : State) : (zeroiseSecret s).replies = s.replies := rfl

@[simp] theorem zeroiseSecret_fresh (s : State) : (zeroiseSecret s).fresh = s.fresh := rfl

/-! ### `completeIllegal` -/

@[simp] theorem completeIllegal_status (s : State) :
    (completeIllegal s).status = errorStatus .illegalCommand := rfl

@[simp] theorem completeIllegal_slen (s : State) : (completeIllegal s).slen = s.slen := rfl

@[simp] theorem completeIllegal_dlen (s : State) : (completeIllegal s).dlen = s.dlen := rfl

@[simp] theorem completeIllegal_cmpcnt (s : State) : (completeIllegal s).cmpcnt = 0 := rfl

@[simp] theorem completeIllegal_sec (s : State) : (completeIllegal s).sec = s.sec := rfl

@[simp] theorem completeIllegal_dig (s : State) : (completeIllegal s).dig = s.dig := rfl

@[simp] theorem completeIllegal_phase (s : State) : (completeIllegal s).phase = Phase.idle := rfl

@[simp] theorem completeIllegal_cmdlatch (s : State) :
    (completeIllegal s).cmdlatch = Config.latchLeft s.stream s.fresh := rfl

@[simp] theorem completeIllegal_work (s : State) :
    (completeIllegal s).work = Config.workLeft s.stream s.fresh := rfl

@[simp] theorem completeIllegal_secMax (s : State) : (completeIllegal s).secMax = s.secMax := rfl

@[simp] theorem completeIllegal_digMax (s : State) : (completeIllegal s).digMax = s.digMax := rfl

@[simp] theorem completeIllegal_entropy (s : State) : (completeIllegal s).entropy = s.entropy := rfl

@[simp] theorem completeIllegal_stream (s : State) : (completeIllegal s).stream = s.stream := rfl

@[simp] theorem completeIllegal_draws (s : State) : (completeIllegal s).draws = s.draws := rfl

@[simp] theorem completeIllegal_inputs (s : State) : (completeIllegal s).inputs = s.inputs := rfl

@[simp] theorem completeIllegal_replies (s : State) : (completeIllegal s).replies = s.replies := rfl

@[simp] theorem completeIllegal_fresh (s : State) : (completeIllegal s).fresh = s.fresh + 1 := rfl

/-! ### `hashError` -/

@[simp] theorem hashError_status (e : ErrorCode) (s : State) :
    (hashError e s).status = errorStatus e := rfl

@[simp] theorem hashError_slen (e : ErrorCode) (s : State) : (hashError e s).slen = 0 := rfl

@[simp] theorem hashError_dlen (e : ErrorCode) (s : State) : (hashError e s).dlen = 0 := rfl

@[simp] theorem hashError_cmpcnt (e : ErrorCode) (s : State) : (hashError e s).cmpcnt = 0 := rfl

@[simp] theorem hashError_sec (e : ErrorCode) (s : State) :
    (hashError e s).sec = Memory.zeros := rfl

@[simp] theorem hashError_dig (e : ErrorCode) (s : State) : (hashError e s).dig = s.dig := rfl

@[simp] theorem hashError_phase (e : ErrorCode) (s : State) :
    (hashError e s).phase = Phase.idle := rfl

@[simp] theorem hashError_cmdlatch (e : ErrorCode) (s : State) :
    (hashError e s).cmdlatch = Config.latchLeft s.stream s.fresh := rfl

@[simp] theorem hashError_work (e : ErrorCode) (s : State) :
    (hashError e s).work = Config.workLeft s.stream s.fresh := rfl

@[simp] theorem hashError_secMax (e : ErrorCode) (s : State) :
    (hashError e s).secMax = s.secMax := rfl

@[simp] theorem hashError_digMax (e : ErrorCode) (s : State) :
    (hashError e s).digMax = s.digMax := rfl

@[simp] theorem hashError_entropy (e : ErrorCode) (s : State) :
    (hashError e s).entropy = s.entropy := rfl

@[simp] theorem hashError_stream (e : ErrorCode) (s : State) :
    (hashError e s).stream = s.stream := rfl

@[simp] theorem hashError_draws (e : ErrorCode) (s : State) : (hashError e s).draws = s.draws := rfl

@[simp] theorem hashError_inputs (e : ErrorCode) (s : State) :
    (hashError e s).inputs = s.inputs := rfl

@[simp] theorem hashError_replies (e : ErrorCode) (s : State) :
    (hashError e s).replies = s.replies := rfl

@[simp] theorem hashError_fresh (e : ErrorCode) (s : State) :
    (hashError e s).fresh = s.fresh + 1 := rfl

/-! ### `finishHash` -/

@[simp] theorem finishHash_status (salt digest : Bytes) (s : State) :
    (finishHash salt digest s).status = okStatus false := rfl

@[simp] theorem finishHash_slen (salt digest : Bytes) (s : State) :
    (finishHash salt digest s).slen = 0 := rfl

@[simp] theorem finishHash_dlen (salt digest : Bytes) (s : State) :
    (finishHash salt digest s).dlen = BitVec.ofNat 64 Config.storedLen := rfl

@[simp] theorem finishHash_cmpcnt (salt digest : Bytes) (s : State) :
    (finishHash salt digest s).cmpcnt = 0 := rfl

@[simp] theorem finishHash_sec (salt digest : Bytes) (s : State) :
    (finishHash salt digest s).sec = Memory.zeros := rfl

@[simp] theorem finishHash_dig (salt digest : Bytes) (s : State) :
    (finishHash salt digest s).dig = s.dig.writeBytes 0 (salt ++ digest) := rfl

@[simp] theorem finishHash_phase (salt digest : Bytes) (s : State) :
    (finishHash salt digest s).phase = Phase.idle := rfl

@[simp] theorem finishHash_cmdlatch (salt digest : Bytes) (s : State) :
    (finishHash salt digest s).cmdlatch = Config.latchLeft s.stream s.fresh := rfl

@[simp] theorem finishHash_work (salt digest : Bytes) (s : State) :
    (finishHash salt digest s).work = Config.workLeft s.stream s.fresh := rfl

@[simp] theorem finishHash_secMax (salt digest : Bytes) (s : State) :
    (finishHash salt digest s).secMax = s.secMax := rfl

@[simp] theorem finishHash_digMax (salt digest : Bytes) (s : State) :
    (finishHash salt digest s).digMax = s.digMax := rfl

@[simp] theorem finishHash_entropy (salt digest : Bytes) (s : State) :
    (finishHash salt digest s).entropy = s.entropy := rfl

@[simp] theorem finishHash_stream (salt digest : Bytes) (s : State) :
    (finishHash salt digest s).stream = s.stream := rfl

@[simp] theorem finishHash_draws (salt digest : Bytes) (s : State) :
    (finishHash salt digest s).draws = s.draws := rfl

@[simp] theorem finishHash_inputs (salt digest : Bytes) (s : State) :
    (finishHash salt digest s).inputs = s.inputs := rfl

@[simp] theorem finishHash_replies (salt digest : Bytes) (s : State) :
    (finishHash salt digest s).replies = s.replies := rfl

@[simp] theorem finishHash_fresh (salt digest : Bytes) (s : State) :
    (finishHash salt digest s).fresh = s.fresh + 1 := rfl

/-! ### `verifyError` -/

@[simp] theorem verifyError_status (e : ErrorCode) (s : State) :
    (verifyError e s).status = errorStatus e := rfl

@[simp] theorem verifyError_slen (e : ErrorCode) (s : State) : (verifyError e s).slen = 0 := rfl

@[simp] theorem verifyError_dlen (e : ErrorCode) (s : State) :
    (verifyError e s).dlen = s.dlen := rfl

@[simp] theorem verifyError_cmpcnt (e : ErrorCode) (s : State) : (verifyError e s).cmpcnt = 0 := rfl

@[simp] theorem verifyError_sec (e : ErrorCode) (s : State) :
    (verifyError e s).sec = Memory.zeros := rfl

@[simp] theorem verifyError_dig (e : ErrorCode) (s : State) : (verifyError e s).dig = s.dig := rfl

@[simp] theorem verifyError_phase (e : ErrorCode) (s : State) :
    (verifyError e s).phase = Phase.idle := rfl

@[simp] theorem verifyError_cmdlatch (e : ErrorCode) (s : State) :
    (verifyError e s).cmdlatch = Config.latchLeft s.stream s.fresh := rfl

@[simp] theorem verifyError_work (e : ErrorCode) (s : State) :
    (verifyError e s).work = Config.workLeft s.stream s.fresh := rfl

@[simp] theorem verifyError_secMax (e : ErrorCode) (s : State) :
    (verifyError e s).secMax = s.secMax := rfl

@[simp] theorem verifyError_digMax (e : ErrorCode) (s : State) :
    (verifyError e s).digMax = s.digMax := rfl

@[simp] theorem verifyError_entropy (e : ErrorCode) (s : State) :
    (verifyError e s).entropy = s.entropy := rfl

@[simp] theorem verifyError_stream (e : ErrorCode) (s : State) :
    (verifyError e s).stream = s.stream := rfl

@[simp] theorem verifyError_draws (e : ErrorCode) (s : State) :
    (verifyError e s).draws = s.draws := rfl

@[simp] theorem verifyError_inputs (e : ErrorCode) (s : State) :
    (verifyError e s).inputs = s.inputs := rfl

@[simp] theorem verifyError_replies (e : ErrorCode) (s : State) :
    (verifyError e s).replies = s.replies := rfl

@[simp] theorem verifyError_fresh (e : ErrorCode) (s : State) :
    (verifyError e s).fresh = s.fresh + 1 := rfl

/-! ### `finishVerify` -/

@[simp] theorem finishVerify_status (eq : Bool) (cnt : Nat) (s : State) :
    (finishVerify eq cnt s).status = okStatus eq := rfl

@[simp] theorem finishVerify_slen (eq : Bool) (cnt : Nat) (s : State) :
    (finishVerify eq cnt s).slen = 0 := rfl

@[simp] theorem finishVerify_dlen (eq : Bool) (cnt : Nat) (s : State) :
    (finishVerify eq cnt s).dlen = s.dlen := rfl

@[simp] theorem finishVerify_cmpcnt (eq : Bool) (cnt : Nat) (s : State) :
    (finishVerify eq cnt s).cmpcnt = BitVec.ofNat 64 cnt := rfl

@[simp] theorem finishVerify_sec (eq : Bool) (cnt : Nat) (s : State) :
    (finishVerify eq cnt s).sec = Memory.zeros := rfl

@[simp] theorem finishVerify_dig (eq : Bool) (cnt : Nat) (s : State) :
    (finishVerify eq cnt s).dig = s.dig := rfl

@[simp] theorem finishVerify_phase (eq : Bool) (cnt : Nat) (s : State) :
    (finishVerify eq cnt s).phase = Phase.idle := rfl

@[simp] theorem finishVerify_cmdlatch (eq : Bool) (cnt : Nat) (s : State) :
    (finishVerify eq cnt s).cmdlatch = Config.latchLeft s.stream s.fresh := rfl

@[simp] theorem finishVerify_work (eq : Bool) (cnt : Nat) (s : State) :
    (finishVerify eq cnt s).work = Config.workLeft s.stream s.fresh := rfl

@[simp] theorem finishVerify_secMax (eq : Bool) (cnt : Nat) (s : State) :
    (finishVerify eq cnt s).secMax = s.secMax := rfl

@[simp] theorem finishVerify_digMax (eq : Bool) (cnt : Nat) (s : State) :
    (finishVerify eq cnt s).digMax = s.digMax := rfl

@[simp] theorem finishVerify_entropy (eq : Bool) (cnt : Nat) (s : State) :
    (finishVerify eq cnt s).entropy = s.entropy := rfl

@[simp] theorem finishVerify_stream (eq : Bool) (cnt : Nat) (s : State) :
    (finishVerify eq cnt s).stream = s.stream := rfl

@[simp] theorem finishVerify_draws (eq : Bool) (cnt : Nat) (s : State) :
    (finishVerify eq cnt s).draws = s.draws := rfl

@[simp] theorem finishVerify_inputs (eq : Bool) (cnt : Nat) (s : State) :
    (finishVerify eq cnt s).inputs = s.inputs := rfl

@[simp] theorem finishVerify_replies (eq : Bool) (cnt : Nat) (s : State) :
    (finishVerify eq cnt s).replies = s.replies := rfl

@[simp] theorem finishVerify_fresh (eq : Bool) (cnt : Nat) (s : State) :
    (finishVerify eq cnt s).fresh = s.fresh + 1 := rfl

/-! ### `cmpeqError` -/

@[simp] theorem cmpeqError_status (e : ErrorCode) (s : State) :
    (cmpeqError e s).status = errorStatus e := rfl

@[simp] theorem cmpeqError_slen (e : ErrorCode) (s : State) : (cmpeqError e s).slen = s.slen := rfl

@[simp] theorem cmpeqError_dlen (e : ErrorCode) (s : State) : (cmpeqError e s).dlen = s.dlen := rfl

@[simp] theorem cmpeqError_cmpcnt (e : ErrorCode) (s : State) : (cmpeqError e s).cmpcnt = 0 := rfl

@[simp] theorem cmpeqError_sec (e : ErrorCode) (s : State) : (cmpeqError e s).sec = s.sec := rfl

@[simp] theorem cmpeqError_dig (e : ErrorCode) (s : State) : (cmpeqError e s).dig = s.dig := rfl

@[simp] theorem cmpeqError_phase (e : ErrorCode) (s : State) :
    (cmpeqError e s).phase = Phase.idle := rfl

@[simp] theorem cmpeqError_cmdlatch (e : ErrorCode) (s : State) :
    (cmpeqError e s).cmdlatch = Config.latchLeft s.stream s.fresh := rfl

@[simp] theorem cmpeqError_work (e : ErrorCode) (s : State) :
    (cmpeqError e s).work = Config.workLeft s.stream s.fresh := rfl

@[simp] theorem cmpeqError_secMax (e : ErrorCode) (s : State) :
    (cmpeqError e s).secMax = s.secMax := rfl

@[simp] theorem cmpeqError_digMax (e : ErrorCode) (s : State) :
    (cmpeqError e s).digMax = s.digMax := rfl

@[simp] theorem cmpeqError_entropy (e : ErrorCode) (s : State) :
    (cmpeqError e s).entropy = s.entropy := rfl

@[simp] theorem cmpeqError_stream (e : ErrorCode) (s : State) :
    (cmpeqError e s).stream = s.stream := rfl

@[simp] theorem cmpeqError_draws (e : ErrorCode) (s : State) :
    (cmpeqError e s).draws = s.draws := rfl

@[simp] theorem cmpeqError_inputs (e : ErrorCode) (s : State) :
    (cmpeqError e s).inputs = s.inputs := rfl

@[simp] theorem cmpeqError_replies (e : ErrorCode) (s : State) :
    (cmpeqError e s).replies = s.replies := rfl

@[simp] theorem cmpeqError_fresh (e : ErrorCode) (s : State) :
    (cmpeqError e s).fresh = s.fresh + 1 := rfl

/-! ### `finishCmpeq` -/

@[simp] theorem finishCmpeq_status (eq : Bool) (cnt : Nat) (s : State) :
    (finishCmpeq eq cnt s).status = okStatus eq := rfl

@[simp] theorem finishCmpeq_slen (eq : Bool) (cnt : Nat) (s : State) :
    (finishCmpeq eq cnt s).slen = s.slen := rfl

@[simp] theorem finishCmpeq_dlen (eq : Bool) (cnt : Nat) (s : State) :
    (finishCmpeq eq cnt s).dlen = s.dlen := rfl

@[simp] theorem finishCmpeq_cmpcnt (eq : Bool) (cnt : Nat) (s : State) :
    (finishCmpeq eq cnt s).cmpcnt = BitVec.ofNat 64 cnt := rfl

@[simp] theorem finishCmpeq_sec (eq : Bool) (cnt : Nat) (s : State) :
    (finishCmpeq eq cnt s).sec = s.sec := rfl

@[simp] theorem finishCmpeq_dig (eq : Bool) (cnt : Nat) (s : State) :
    (finishCmpeq eq cnt s).dig = s.dig := rfl

@[simp] theorem finishCmpeq_phase (eq : Bool) (cnt : Nat) (s : State) :
    (finishCmpeq eq cnt s).phase = Phase.idle := rfl

@[simp] theorem finishCmpeq_cmdlatch (eq : Bool) (cnt : Nat) (s : State) :
    (finishCmpeq eq cnt s).cmdlatch = Config.latchLeft s.stream s.fresh := rfl

@[simp] theorem finishCmpeq_work (eq : Bool) (cnt : Nat) (s : State) :
    (finishCmpeq eq cnt s).work = Config.workLeft s.stream s.fresh := rfl

@[simp] theorem finishCmpeq_secMax (eq : Bool) (cnt : Nat) (s : State) :
    (finishCmpeq eq cnt s).secMax = s.secMax := rfl

@[simp] theorem finishCmpeq_digMax (eq : Bool) (cnt : Nat) (s : State) :
    (finishCmpeq eq cnt s).digMax = s.digMax := rfl

@[simp] theorem finishCmpeq_entropy (eq : Bool) (cnt : Nat) (s : State) :
    (finishCmpeq eq cnt s).entropy = s.entropy := rfl

@[simp] theorem finishCmpeq_stream (eq : Bool) (cnt : Nat) (s : State) :
    (finishCmpeq eq cnt s).stream = s.stream := rfl

@[simp] theorem finishCmpeq_draws (eq : Bool) (cnt : Nat) (s : State) :
    (finishCmpeq eq cnt s).draws = s.draws := rfl

@[simp] theorem finishCmpeq_inputs (eq : Bool) (cnt : Nat) (s : State) :
    (finishCmpeq eq cnt s).inputs = s.inputs := rfl

@[simp] theorem finishCmpeq_replies (eq : Bool) (cnt : Nat) (s : State) :
    (finishCmpeq eq cnt s).replies = s.replies := rfl

@[simp] theorem finishCmpeq_fresh (eq : Bool) (cnt : Nat) (s : State) :
    (finishCmpeq eq cnt s).fresh = s.fresh + 1 := rfl

/-! ### `resetEvent` -/

@[simp] theorem resetEvent_status (s : State) : (resetEvent s).status = 0 := rfl

@[simp] theorem resetEvent_slen (s : State) : (resetEvent s).slen = 0 := rfl

@[simp] theorem resetEvent_dlen (s : State) : (resetEvent s).dlen = 0 := rfl

@[simp] theorem resetEvent_cmpcnt (s : State) : (resetEvent s).cmpcnt = 0 := rfl

@[simp] theorem resetEvent_sec (s : State) : (resetEvent s).sec = [] := rfl

@[simp] theorem resetEvent_dig (s : State) : (resetEvent s).dig = [] := rfl

@[simp] theorem resetEvent_phase (s : State) : (resetEvent s).phase = Phase.idle := rfl

@[simp] theorem resetEvent_cmdlatch (s : State) :
    (resetEvent s).cmdlatch = Config.latchLeft s.stream s.fresh := rfl

@[simp] theorem resetEvent_work (s : State) :
    (resetEvent s).work = Config.workLeft s.stream s.fresh := rfl

@[simp] theorem resetEvent_secMax (s : State) : (resetEvent s).secMax = s.secMax := rfl

@[simp] theorem resetEvent_digMax (s : State) : (resetEvent s).digMax = s.digMax := rfl

@[simp] theorem resetEvent_entropy (s : State) :
    (resetEvent s).entropy = (abandonDraws s).entropy := rfl

@[simp] theorem resetEvent_stream (s : State) : (resetEvent s).stream = s.stream := rfl

@[simp] theorem resetEvent_draws (s : State) : (resetEvent s).draws = (abandonDraws s).draws := rfl

@[simp] theorem resetEvent_inputs (s : State) : (resetEvent s).inputs = s.inputs := rfl

@[simp] theorem resetEvent_replies (s : State) : (resetEvent s).replies = s.replies := rfl

@[simp] theorem resetEvent_fresh (s : State) : (resetEvent s).fresh = s.fresh + 1 := rfl

/-! ### `reply` -/

@[simp] theorem reply_status (r : Reply) (s : State) : (reply r s).status = s.status := rfl

@[simp] theorem reply_slen (r : Reply) (s : State) : (reply r s).slen = s.slen := rfl

@[simp] theorem reply_dlen (r : Reply) (s : State) : (reply r s).dlen = s.dlen := rfl

@[simp] theorem reply_cmpcnt (r : Reply) (s : State) : (reply r s).cmpcnt = s.cmpcnt := rfl

@[simp] theorem reply_sec (r : Reply) (s : State) : (reply r s).sec = s.sec := rfl

@[simp] theorem reply_dig (r : Reply) (s : State) : (reply r s).dig = s.dig := rfl

@[simp] theorem reply_phase (r : Reply) (s : State) : (reply r s).phase = s.phase := rfl

@[simp] theorem reply_cmdlatch (r : Reply) (s : State) : (reply r s).cmdlatch = s.cmdlatch := rfl

@[simp] theorem reply_work (r : Reply) (s : State) : (reply r s).work = s.work := rfl

@[simp] theorem reply_secMax (r : Reply) (s : State) : (reply r s).secMax = s.secMax := rfl

@[simp] theorem reply_digMax (r : Reply) (s : State) : (reply r s).digMax = s.digMax := rfl

@[simp] theorem reply_entropy (r : Reply) (s : State) : (reply r s).entropy = s.entropy := rfl

@[simp] theorem reply_stream (r : Reply) (s : State) : (reply r s).stream = s.stream := rfl

@[simp] theorem reply_draws (r : Reply) (s : State) : (reply r s).draws = s.draws := rfl

@[simp] theorem reply_inputs (r : Reply) (s : State) : (reply r s).inputs = s.inputs := rfl

@[simp] theorem reply_replies (r : Reply) (s : State) :
    (reply r s).replies = s.replies ++ [r] := rfl

@[simp] theorem reply_fresh (r : Reply) (s : State) : (reply r s).fresh = s.fresh := rfl

/-! ### The internal steps change the working registers alone -/

@[simp] theorem seqGoto_status (p : Pos) (s : State) : (seqGoto p s).status = s.status := rfl

@[simp] theorem seqGoto_slen (p : Pos) (s : State) : (seqGoto p s).slen = s.slen := rfl

@[simp] theorem seqGoto_dlen (p : Pos) (s : State) : (seqGoto p s).dlen = s.dlen := rfl

@[simp] theorem seqGoto_cmpcnt (p : Pos) (s : State) : (seqGoto p s).cmpcnt = s.cmpcnt := rfl

@[simp] theorem seqGoto_sec (p : Pos) (s : State) : (seqGoto p s).sec = s.sec := rfl

@[simp] theorem seqGoto_dig (p : Pos) (s : State) : (seqGoto p s).dig = s.dig := rfl

@[simp] theorem seqGoto_phase (p : Pos) (s : State) : (seqGoto p s).phase = s.phase := rfl

@[simp] theorem seqGoto_cmdlatch (p : Pos) (s : State) : (seqGoto p s).cmdlatch = s.cmdlatch := rfl

@[simp] theorem seqGoto_secMax (p : Pos) (s : State) : (seqGoto p s).secMax = s.secMax := rfl

@[simp] theorem seqGoto_digMax (p : Pos) (s : State) : (seqGoto p s).digMax = s.digMax := rfl

@[simp] theorem seqGoto_entropy (p : Pos) (s : State) : (seqGoto p s).entropy = s.entropy := rfl

@[simp] theorem seqGoto_stream (p : Pos) (s : State) : (seqGoto p s).stream = s.stream := rfl

@[simp] theorem seqGoto_draws (p : Pos) (s : State) : (seqGoto p s).draws = s.draws := rfl

@[simp] theorem seqGoto_inputs (p : Pos) (s : State) : (seqGoto p s).inputs = s.inputs := rfl

@[simp] theorem seqGoto_replies (p : Pos) (s : State) : (seqGoto p s).replies = s.replies := rfl

@[simp] theorem seqGoto_fresh (p : Pos) (s : State) : (seqGoto p s).fresh = s.fresh := rfl

@[simp] theorem seqStart_status (s : State) : (seqStart s).status = s.status := rfl

@[simp] theorem seqStart_slen (s : State) : (seqStart s).slen = s.slen := rfl

@[simp] theorem seqStart_dlen (s : State) : (seqStart s).dlen = s.dlen := rfl

@[simp] theorem seqStart_cmpcnt (s : State) : (seqStart s).cmpcnt = s.cmpcnt := rfl

@[simp] theorem seqStart_sec (s : State) : (seqStart s).sec = s.sec := rfl

@[simp] theorem seqStart_dig (s : State) : (seqStart s).dig = s.dig := rfl

@[simp] theorem seqStart_phase (s : State) : (seqStart s).phase = s.phase := rfl

@[simp] theorem seqStart_cmdlatch (s : State) : (seqStart s).cmdlatch = s.cmdlatch := rfl

@[simp] theorem seqStart_secMax (s : State) : (seqStart s).secMax = s.secMax := rfl

@[simp] theorem seqStart_digMax (s : State) : (seqStart s).digMax = s.digMax := rfl

@[simp] theorem seqStart_entropy (s : State) : (seqStart s).entropy = s.entropy := rfl

@[simp] theorem seqStart_stream (s : State) : (seqStart s).stream = s.stream := rfl

@[simp] theorem seqStart_draws (s : State) : (seqStart s).draws = s.draws := rfl

@[simp] theorem seqStart_inputs (s : State) : (seqStart s).inputs = s.inputs := rfl

@[simp] theorem seqStart_replies (s : State) : (seqStart s).replies = s.replies := rfl

@[simp] theorem seqStart_fresh (s : State) : (seqStart s).fresh = s.fresh := rfl

@[simp] theorem startIteration_status (k : Nat) (msg : Bytes) (s : State) :
    (startIteration k msg s).status = s.status := rfl

@[simp] theorem startIteration_slen (k : Nat) (msg : Bytes) (s : State) :
    (startIteration k msg s).slen = s.slen := rfl

@[simp] theorem startIteration_dlen (k : Nat) (msg : Bytes) (s : State) :
    (startIteration k msg s).dlen = s.dlen := rfl

@[simp] theorem startIteration_cmpcnt (k : Nat) (msg : Bytes) (s : State) :
    (startIteration k msg s).cmpcnt = s.cmpcnt := rfl

@[simp] theorem startIteration_sec (k : Nat) (msg : Bytes) (s : State) :
    (startIteration k msg s).sec = s.sec := rfl

@[simp] theorem startIteration_dig (k : Nat) (msg : Bytes) (s : State) :
    (startIteration k msg s).dig = s.dig := rfl

@[simp] theorem startIteration_phase (k : Nat) (msg : Bytes) (s : State) :
    (startIteration k msg s).phase = s.phase := rfl

@[simp] theorem startIteration_cmdlatch (k : Nat) (msg : Bytes) (s : State) :
    (startIteration k msg s).cmdlatch = s.cmdlatch := rfl

@[simp] theorem startIteration_secMax (k : Nat) (msg : Bytes) (s : State) :
    (startIteration k msg s).secMax = s.secMax := rfl

@[simp] theorem startIteration_digMax (k : Nat) (msg : Bytes) (s : State) :
    (startIteration k msg s).digMax = s.digMax := rfl

@[simp] theorem startIteration_entropy (k : Nat) (msg : Bytes) (s : State) :
    (startIteration k msg s).entropy = s.entropy := rfl

@[simp] theorem startIteration_stream (k : Nat) (msg : Bytes) (s : State) :
    (startIteration k msg s).stream = s.stream := rfl

@[simp] theorem startIteration_draws (k : Nat) (msg : Bytes) (s : State) :
    (startIteration k msg s).draws = s.draws := rfl

@[simp] theorem startIteration_inputs (k : Nat) (msg : Bytes) (s : State) :
    (startIteration k msg s).inputs = s.inputs := rfl

@[simp] theorem startIteration_replies (k : Nat) (msg : Bytes) (s : State) :
    (startIteration k msg s).replies = s.replies := rfl

@[simp] theorem startIteration_fresh (k : Nat) (msg : Bytes) (s : State) :
    (startIteration k msg s).fresh = s.fresh := rfl

@[simp] theorem startCompare_status (a b : Bytes) (s : State) :
    (startCompare a b s).status = s.status := rfl

@[simp] theorem startCompare_slen (a b : Bytes) (s : State) :
    (startCompare a b s).slen = s.slen := rfl

@[simp] theorem startCompare_dlen (a b : Bytes) (s : State) :
    (startCompare a b s).dlen = s.dlen := rfl

@[simp] theorem startCompare_cmpcnt (a b : Bytes) (s : State) :
    (startCompare a b s).cmpcnt = s.cmpcnt := rfl

@[simp] theorem startCompare_sec (a b : Bytes) (s : State) : (startCompare a b s).sec = s.sec := rfl

@[simp] theorem startCompare_dig (a b : Bytes) (s : State) : (startCompare a b s).dig = s.dig := rfl

@[simp] theorem startCompare_phase (a b : Bytes) (s : State) :
    (startCompare a b s).phase = s.phase := rfl

@[simp] theorem startCompare_cmdlatch (a b : Bytes) (s : State) :
    (startCompare a b s).cmdlatch = s.cmdlatch := rfl

@[simp] theorem startCompare_secMax (a b : Bytes) (s : State) :
    (startCompare a b s).secMax = s.secMax := rfl

@[simp] theorem startCompare_digMax (a b : Bytes) (s : State) :
    (startCompare a b s).digMax = s.digMax := rfl

@[simp] theorem startCompare_entropy (a b : Bytes) (s : State) :
    (startCompare a b s).entropy = s.entropy := rfl

@[simp] theorem startCompare_stream (a b : Bytes) (s : State) :
    (startCompare a b s).stream = s.stream := rfl

@[simp] theorem startCompare_draws (a b : Bytes) (s : State) :
    (startCompare a b s).draws = s.draws := rfl

@[simp] theorem startCompare_inputs (a b : Bytes) (s : State) :
    (startCompare a b s).inputs = s.inputs := rfl

@[simp] theorem startCompare_replies (a b : Bytes) (s : State) :
    (startCompare a b s).replies = s.replies := rfl

@[simp] theorem startCompare_fresh (a b : Bytes) (s : State) :
    (startCompare a b s).fresh = s.fresh := rfl

@[simp] theorem loadBlock_status (blk : Nat) (s : State) :
    (loadBlock blk s).status = s.status := rfl

@[simp] theorem loadBlock_slen (blk : Nat) (s : State) : (loadBlock blk s).slen = s.slen := rfl

@[simp] theorem loadBlock_dlen (blk : Nat) (s : State) : (loadBlock blk s).dlen = s.dlen := rfl

@[simp] theorem loadBlock_cmpcnt (blk : Nat) (s : State) :
    (loadBlock blk s).cmpcnt = s.cmpcnt := rfl

@[simp] theorem loadBlock_sec (blk : Nat) (s : State) : (loadBlock blk s).sec = s.sec := rfl

@[simp] theorem loadBlock_dig (blk : Nat) (s : State) : (loadBlock blk s).dig = s.dig := rfl

@[simp] theorem loadBlock_phase (blk : Nat) (s : State) : (loadBlock blk s).phase = s.phase := rfl

@[simp] theorem loadBlock_cmdlatch (blk : Nat) (s : State) :
    (loadBlock blk s).cmdlatch = s.cmdlatch := rfl

@[simp] theorem loadBlock_secMax (blk : Nat) (s : State) :
    (loadBlock blk s).secMax = s.secMax := rfl

@[simp] theorem loadBlock_digMax (blk : Nat) (s : State) :
    (loadBlock blk s).digMax = s.digMax := rfl

@[simp] theorem loadBlock_entropy (blk : Nat) (s : State) :
    (loadBlock blk s).entropy = s.entropy := rfl

@[simp] theorem loadBlock_stream (blk : Nat) (s : State) :
    (loadBlock blk s).stream = s.stream := rfl

@[simp] theorem loadBlock_draws (blk : Nat) (s : State) : (loadBlock blk s).draws = s.draws := rfl

@[simp] theorem loadBlock_inputs (blk : Nat) (s : State) :
    (loadBlock blk s).inputs = s.inputs := rfl

@[simp] theorem loadBlock_replies (blk : Nat) (s : State) :
    (loadBlock blk s).replies = s.replies := rfl

@[simp] theorem loadBlock_fresh (blk : Nat) (s : State) : (loadBlock blk s).fresh = s.fresh := rfl

@[simp] theorem workRound_status (t : Nat) (s : State) : (workRound t s).status = s.status := rfl

@[simp] theorem workRound_slen (t : Nat) (s : State) : (workRound t s).slen = s.slen := rfl

@[simp] theorem workRound_dlen (t : Nat) (s : State) : (workRound t s).dlen = s.dlen := rfl

@[simp] theorem workRound_cmpcnt (t : Nat) (s : State) : (workRound t s).cmpcnt = s.cmpcnt := rfl

@[simp] theorem workRound_sec (t : Nat) (s : State) : (workRound t s).sec = s.sec := rfl

@[simp] theorem workRound_dig (t : Nat) (s : State) : (workRound t s).dig = s.dig := rfl

@[simp] theorem workRound_phase (t : Nat) (s : State) : (workRound t s).phase = s.phase := rfl

@[simp] theorem workRound_cmdlatch (t : Nat) (s : State) :
    (workRound t s).cmdlatch = s.cmdlatch := rfl

@[simp] theorem workRound_secMax (t : Nat) (s : State) : (workRound t s).secMax = s.secMax := rfl

@[simp] theorem workRound_digMax (t : Nat) (s : State) : (workRound t s).digMax = s.digMax := rfl

@[simp] theorem workRound_entropy (t : Nat) (s : State) : (workRound t s).entropy = s.entropy := rfl

@[simp] theorem workRound_stream (t : Nat) (s : State) : (workRound t s).stream = s.stream := rfl

@[simp] theorem workRound_draws (t : Nat) (s : State) : (workRound t s).draws = s.draws := rfl

@[simp] theorem workRound_inputs (t : Nat) (s : State) : (workRound t s).inputs = s.inputs := rfl

@[simp] theorem workRound_replies (t : Nat) (s : State) : (workRound t s).replies = s.replies := rfl

@[simp] theorem workRound_fresh (t : Nat) (s : State) : (workRound t s).fresh = s.fresh := rfl

@[simp] theorem addChain_status (s : State) : (addChain s).status = s.status := rfl

@[simp] theorem addChain_slen (s : State) : (addChain s).slen = s.slen := rfl

@[simp] theorem addChain_dlen (s : State) : (addChain s).dlen = s.dlen := rfl

@[simp] theorem addChain_cmpcnt (s : State) : (addChain s).cmpcnt = s.cmpcnt := rfl

@[simp] theorem addChain_sec (s : State) : (addChain s).sec = s.sec := rfl

@[simp] theorem addChain_dig (s : State) : (addChain s).dig = s.dig := rfl

@[simp] theorem addChain_phase (s : State) : (addChain s).phase = s.phase := rfl

@[simp] theorem addChain_cmdlatch (s : State) : (addChain s).cmdlatch = s.cmdlatch := rfl

@[simp] theorem addChain_secMax (s : State) : (addChain s).secMax = s.secMax := rfl

@[simp] theorem addChain_digMax (s : State) : (addChain s).digMax = s.digMax := rfl

@[simp] theorem addChain_entropy (s : State) : (addChain s).entropy = s.entropy := rfl

@[simp] theorem addChain_stream (s : State) : (addChain s).stream = s.stream := rfl

@[simp] theorem addChain_draws (s : State) : (addChain s).draws = s.draws := rfl

@[simp] theorem addChain_inputs (s : State) : (addChain s).inputs = s.inputs := rfl

@[simp] theorem addChain_replies (s : State) : (addChain s).replies = s.replies := rfl

@[simp] theorem addChain_fresh (s : State) : (addChain s).fresh = s.fresh := rfl

/-! ### Views -/

@[simp] theorem view_status (s : State) : s.view.status = s.status := rfl

@[simp] theorem view_slen (s : State) : s.view.slen = s.slen := rfl

@[simp] theorem view_dlen (s : State) : s.view.dlen = s.dlen := rfl

@[simp] theorem view_cmpcnt (s : State) : s.view.cmpcnt = s.cmpcnt := rfl

@[simp] theorem view_sec (s : State) : s.view.sec = s.sec := rfl

@[simp] theorem view_dig (s : State) : s.view.dig = s.dig := rfl

@[simp] theorem view_phase (s : State) : s.view.phase = s.phase := rfl

@[simp] theorem view_secMax (s : State) : s.view.secMax = s.secMax := rfl

@[simp] theorem view_digMax (s : State) : s.view.digMax = s.digMax := rfl

@[simp] theorem world_entropy (s : State) : s.world.entropy = s.entropy := rfl

@[simp] theorem world_stream (s : State) : s.world.stream = s.stream := rfl

@[simp] theorem world_draws (s : State) : s.world.draws = s.draws := rfl

@[simp] theorem world_inputs (s : State) : s.world.inputs = s.inputs := rfl

@[simp] theorem world_replies (s : State) : s.world.replies = s.replies := rfl

end Sys2Proof.Machine
end

