-- ==== Sys2Proof/Laws/Memory.lean ====
section
/-!
SUPPORT. The laws of a buffer: read after write, what a write leaves alone, the canonical form and the
capacity kept by every operation, and that canonical buffers with the same bytes are equal.
-/

namespace Sys2Proof.Machine

/-! ### Reading -/

@[simp] theorem read_zeros (off : Nat) : Memory.zeros.read off = 0 := rfl

@[simp] theorem read_nil (off : Nat) : Memory.read [] off = 0 := rfl

theorem risingFrom_mono {lo lo' : Nat} (h : lo ≤ lo') :
    ∀ {m : Memory}, Memory.risingFrom lo' m = true → Memory.risingFrom lo m = true
  | [], _ => rfl
  | (_, _) :: _, hm => by
    simp only [Memory.risingFrom, Bool.and_eq_true, decide_eq_true_eq] at hm ⊢
    exact ⟨⟨by omega, hm.1.2⟩, hm.2⟩

/-- Below its first listed offset a buffer holds zeros. -/
theorem read_below {lo off : Nat} (h : off < lo) :
    ∀ {m : Memory}, Memory.risingFrom lo m = true → m.read off = 0
  | [], _ => rfl
  | (a, v) :: m, hm => by
    simp only [Memory.risingFrom, Bool.and_eq_true, decide_eq_true_eq] at hm
    have : a ≠ off := by omega
    simp only [Memory.read, this, if_false]
    exact read_below (lo := a + 1) (by omega) hm.2

theorem read_cons (off off' : Nat) (v : Byte) (m : Memory)
    (hm : Memory.risingFrom (off + 1) m = true) :
    (Memory.cons off v m).read off' = if off = off' then v else m.read off' := by
  unfold Memory.cons
  split
  · next hv =>
    split
    · next h => rw [hv, ← h]; exact read_below (by omega) hm
    · rfl
  · rfl

/-- Read after write, at the offset written and at every other. -/
theorem read_write (v : Byte) (off off' : Nat) :
    ∀ {lo : Nat} {m : Memory}, Memory.risingFrom lo m = true →
      (m.write off v).read off' = if off = off' then v else m.read off'
  | _, [], _ => by simpa [Memory.write] using read_cons off off' v [] rfl
  | lo, (a, u) :: m, hm => by
    have hm' := hm
    simp only [Memory.risingFrom, Bool.and_eq_true, decide_eq_true_eq] at hm
    unfold Memory.write
    split
    · next h =>
      have ih := read_write v off off' hm.2
      simp only [Memory.read, ih]
      split
      · next h' => rw [if_neg (by omega)]
      · rfl
    · split
      · next h =>
        subst h
        rw [read_cons _ _ _ _ hm.2]
        simp only [Memory.read]
        split <;> rfl
      · rw [read_cons]
        simp only [Memory.risingFrom, Bool.and_eq_true, decide_eq_true_eq]
        exact ⟨⟨by omega, hm.1.2⟩, hm.2⟩

theorem read_write_same {m : Memory} (hm : m.wf = true) (off : Nat) (v : Byte) :
    (m.write off v).read off = v := by
  rw [read_write v off off hm, if_pos rfl]

theorem read_write_other {m : Memory} (hm : m.wf = true) {off off' : Nat} (h : off' ≠ off)
    (v : Byte) : (m.write off v).read off' = m.read off' := by
  rw [read_write v off off' hm, if_neg (Ne.symm h)]

/-! ### The canonical form -/

theorem risingFrom_cons {lo off : Nat} (h : lo ≤ off) (v : Byte) {m : Memory}
    (hm : Memory.risingFrom (off + 1) m = true) :
    Memory.risingFrom lo (Memory.cons off v m) = true := by
  unfold Memory.cons
  split
  · exact risingFrom_mono (by omega) hm
  · next hv => simpa [Memory.risingFrom, h, hm] using hv

theorem risingFrom_write (v : Byte) (off : Nat) :
    ∀ {lo : Nat} {m : Memory}, Memory.risingFrom lo m = true → lo ≤ off →
      Memory.risingFrom lo (m.write off v) = true
  | _, [], _, h => by simpa [Memory.write] using risingFrom_cons h v (m := []) rfl
  | lo, (a, u) :: m, hm, h => by
    have hm' := hm
    simp only [Memory.risingFrom, Bool.and_eq_true, decide_eq_true_eq] at hm
    unfold Memory.write
    split
    · simp only [Memory.risingFrom, Bool.and_eq_true, decide_eq_true_eq]
      exact ⟨hm.1, risingFrom_write v off hm.2 (by omega)⟩
    · split
      · next h' => subst h'; exact risingFrom_cons hm.1.1 v hm.2
      · refine risingFrom_cons h v ?_
        simp only [Memory.risingFrom, Bool.and_eq_true, decide_eq_true_eq]
        exact ⟨⟨by omega, hm.1.2⟩, hm.2⟩

/-- A write keeps the canonical form. -/
theorem wf_write {m : Memory} (hm : m.wf = true) (off : Nat) (v : Byte) :
    (m.write off v).wf = true := risingFrom_write v off hm (Nat.zero_le _)

/-- Storing a byte string keeps the canonical form. -/
theorem wf_writeBytes :
    ∀ (bs : Bytes) {m : Memory} (off : Nat), m.wf = true → (m.writeBytes off bs).wf = true
  | [], _, _, hm => hm
  | b :: bs, _, off, hm => wf_writeBytes bs (off + 1) (wf_write hm off b)

@[simp] theorem wf_zeros : Memory.zeros.wf = true := rfl

/-- Canonical buffers that hold the same bytes are equal. -/
theorem memory_ext :
    ∀ {lo : Nat} {m m' : Memory}, Memory.risingFrom lo m = true → Memory.risingFrom lo m' = true →
      (∀ off, m.read off = m'.read off) → m = m'
  | _, [], [], _, _, _ => rfl
  | _, [], (a, v) :: m', _, h', h => by
    have := h a
    simp only [Memory.risingFrom, Bool.and_eq_true, bne_iff_ne] at h'
    simp only [Memory.read, if_true] at this
    exact absurd this.symm h'.1.2
  | _, (a, v) :: m, [], hm, _, h => by
    have := h a
    simp only [Memory.risingFrom, Bool.and_eq_true, bne_iff_ne] at hm
    simp only [Memory.read, if_true] at this
    exact absurd this hm.1.2
  | _, (a, v) :: m, (a', v') :: m', hm, hm', h => by
    simp only [Memory.risingFrom, Bool.and_eq_true, bne_iff_ne, decide_eq_true_eq] at hm hm'
    have haa : a = a' := by
      have h1 := h a
      have h2 := h a'
      simp only [Memory.read, if_true] at h1 h2
      rcases Nat.lt_trichotomy a a' with hlt | heq | hgt
      · rw [if_neg (by omega), read_below (lo := a' + 1) (by omega) hm'.2] at h1
        exact absurd h1 hm.1.2
      · exact heq
      · rw [if_neg (by omega), read_below (lo := a + 1) (by omega) hm.2] at h2
        exact absurd h2.symm hm'.1.2
    subst haa
    have hv : v = v' := by simpa [Memory.read] using h a
    subst hv
    have : m = m' := by
      refine memory_ext hm.2 hm'.2 fun off => ?_
      have := h off
      simp only [Memory.read] at this
      split at this
      · next h' =>
        rw [read_below (lo := a + 1) (by omega) hm.2, read_below (lo := a + 1) (by omega) hm'.2]
      · exact this
    rw [this]

/-! ### The capacity -/

theorem within_cons (c : Capacity) {off : Nat} (h : c.covers off = true) (v : Byte) {m : Memory}
    (hm : m.within c = true) : (Memory.cons off v m).within c = true := by
  unfold Memory.cons
  split
  · exact hm
  · simpa [Memory.within, h] using hm

/-- A write below the capacity stays within it. -/
theorem within_write (c : Capacity) {off : Nat} (h : c.covers off = true) (v : Byte) :
    ∀ {m : Memory}, m.within c = true → (m.write off v).within c = true
  | [], _ => by simpa [Memory.write] using within_cons c h v (m := []) rfl
  | (a, u) :: m, hm => by
    have hm' := hm
    simp only [Memory.within, List.all_cons, Bool.and_eq_true] at hm
    unfold Memory.write
    split
    · have := within_write c h v (m := m) hm.2
      simp only [Memory.within, List.all_cons, Bool.and_eq_true]
      exact ⟨hm.1, this⟩
    · split
      · exact within_cons c h v hm.2
      · exact within_cons c h v hm'

/-- Storing a byte string below the capacity stays within it. -/
theorem within_writeBytes (c : Capacity) :
    ∀ (bs : Bytes) {m : Memory} (off : Nat), (∀ i, i < bs.length → c.covers (off + i) = true) →
      m.within c = true → (m.writeBytes off bs).within c = true
  | [], _, _, _, hm => hm
  | b :: bs, m, off, h, hm => by
    refine within_writeBytes c bs (off + 1) (fun i hi => ?_)
      (within_write c (by simpa using h 0 (by simp)) b hm)
    have := h (i + 1) (by simpa using hi)
    rwa [show off + 1 + i = off + (i + 1) by omega]

@[simp] theorem within_zeros (c : Capacity) : Memory.zeros.within c = true := rfl

/-! ### Byte strings -/

@[simp] theorem length_readBytes (m : Memory) (off n : Nat) : (m.readBytes off n).length = n := by
  simp [Memory.readBytes]

theorem getD_readBytes (m : Memory) (off n i : Nat) (h : i < n) (d : Byte) :
    (m.readBytes off n).getD i d = m.read (off + i) := by
  simp [Memory.readBytes, List.getD, h]

/-- Two buffers that agree on the bytes read give the same string. -/
theorem readBytes_congr {m m' : Memory} {off n : Nat}
    (h : ∀ i, i < n → m.read (off + i) = m'.read (off + i)) :
    m.readBytes off n = m'.readBytes off n := by
  unfold Memory.readBytes
  exact List.map_congr_left fun i hi => h i (List.mem_range.1 hi)

/-- What a stored byte string leaves in a buffer. -/
theorem read_writeBytes :
    ∀ (bs : Bytes) {m : Memory} (off off' : Nat), m.wf = true →
      (m.writeBytes off bs).read off' =
        if off ≤ off' ∧ off' < off + bs.length then bs.getD (off' - off) 0 else m.read off'
  | [], m, off, off', _ => by
    rw [if_neg (by simp)]
    rfl
  | b :: bs, m, off, off', hm => by
    rw [Memory.writeBytes, read_writeBytes bs (off + 1) off' (wf_write hm off b),
      read_write b off off' hm]
    simp only [List.length_cons]
    rcases Nat.lt_trichotomy off' off with h | h | h
    · rw [if_neg (by omega), if_neg (by omega), if_neg (by omega)]
    · subst h
      rw [if_neg (by omega), if_pos rfl, if_pos (by omega)]
      simp
    · obtain ⟨k, rfl⟩ : ∃ k, off' = off + 1 + k := ⟨off' - off - 1, by omega⟩
      by_cases hk : k < bs.length
      · rw [if_pos (by omega), if_pos (by omega)]
        rw [show off + 1 + k - off = k + 1 by omega, show off + 1 + k - (off + 1) = k by omega]
        simp
      · rw [if_neg (by omega), if_neg (by omega), if_neg (by omega)]

end Sys2Proof.Machine
end

