-- ==== Sys2Proof/Laws/Compare.lean ====
section
/-!
SUPPORT. What the comparator's loop accumulates and counts.
-/

namespace Sys2Proof.Machine

/-- The accumulator stays zero exactly when it was and the two bytes are equal. -/
theorem accumulate_eq_zero (diff : Word) (x y : Byte) :
    accumulate diff x y = 0 ↔ diff = 0 ∧ x = y := by
  have hz : (x ^^^ y).setWidth 64 = 0 ↔ x = y := by
    constructor
    · intro h
      have h' : (x ^^^ y).toNat = 0 := by
        have := congrArg BitVec.toNat h
        rw [BitVec.toNat_setWidth, Nat.mod_eq_of_lt (by have := (x ^^^ y).isLt; omega)] at this
        simpa using this
      exact BitVec.xor_eq_zero_iff.1 (BitVec.eq_of_toNat_eq (by simpa using h'))
    · rintro rfl
      simp
  unfold accumulate
  rw [← hz]
  exact BitVec.or_eq_zero_iff

/-- The loop's accumulator is zero exactly when it began at zero and every pair of bytes was equal. -/
theorem slowLoop_diff_eq_zero :
    ∀ (a b : Bytes) (diff : Word) (cnt : Nat),
      (slowLoop diff cnt a b).1 = 0 ↔
        diff = 0 ∧ ∀ i, i < min a.length b.length → a.getD i 0 = b.getD i 0
  | [], b, diff, cnt => by simp [slowLoop]
  | x :: a, [], diff, cnt => by simp [slowLoop]
  | x :: a, y :: b, diff, cnt => by
    rw [slowLoop, slowLoop_diff_eq_zero a b, accumulate_eq_zero]
    constructor
    · rintro ⟨⟨hd, hxy⟩, h⟩
      refine ⟨hd, fun i hi => ?_⟩
      cases i with
      | zero => simpa using hxy
      | succ i =>
        have := h i (by simp only [List.length_cons] at hi; omega)
        simpa using this
    · rintro ⟨hd, h⟩
      refine ⟨⟨hd, by simpa using h 0 (by simp)⟩, fun i hi => ?_⟩
      have := h (i + 1) (by simp only [List.length_cons]; omega)
      simpa using this

/-- The loop counts one comparison for each index of the shorter string. -/
theorem slowLoop_count :
    ∀ (a b : Bytes) (diff : Word) (cnt : Nat),
      (slowLoop diff cnt a b).2 = cnt + min a.length b.length
  | [], b, diff, cnt => by simp [slowLoop]
  | x :: a, [], diff, cnt => by simp [slowLoop]
  | x :: a, y :: b, diff, cnt => by
    rw [slowLoop, slowLoop_count a b]
    simp only [List.length_cons]
    omega

/-- The start value is zero exactly when the lengths are equal (rule R161). -/
theorem lengthDiff_eq_zero {a b : Bytes} (ha : a.length < 2 ^ 64) (hb : b.length < 2 ^ 64) :
    lengthDiff a b = 0 ↔ a.length = b.length := by
  unfold lengthDiff
  constructor
  · intro h
    have := congrArg BitVec.toNat (BitVec.xor_eq_zero_iff.1 h)
    rwa [BitVec.toNat_ofNat, BitVec.toNat_ofNat, Nat.mod_eq_of_lt ha, Nat.mod_eq_of_lt hb] at this
  · intro h
    rw [h]
    simp

/-- Two byte strings are equal when they have the same length and the same byte at every index
(rule R9). -/
theorem bytes_ext {a b : Bytes} (hl : a.length = b.length)
    (h : ∀ i, i < a.length → a.getD i 0 = b.getD i 0) : a = b := by
  refine List.ext_getElem hl fun i hi hi' => ?_
  have := h i hi
  simpa [List.getD, hi, hi'] using this

/-- `SlowEquals` answers equality whenever the two lengths fit in 64 bits. -/
theorem slowEquals_fst {a b : Bytes} (ha : a.length < 2 ^ 64) (hb : b.length < 2 ^ 64) :
    (slowEquals a b).1 = decide (a = b) := by
  rw [Bool.eq_iff_iff, decide_eq_true_iff]
  simp only [slowEquals, beq_iff_eq]
  rw [slowLoop_diff_eq_zero, lengthDiff_eq_zero ha hb]
  constructor
  · rintro ⟨hl, h⟩
    exact bytes_ext hl fun i hi => h i (by omega)
  · rintro rfl
    exact ⟨rfl, fun _ _ => rfl⟩

end Sys2Proof.Machine
end

