-- ==== Sys2Proof/Laws/Sha512.lean ====
section
/-!
SUPPORT. Lengths and forms of the byte strings and word lists of the hash core.
-/

namespace Sys2Proof.Machine

/-! ### Big-endian bytes -/

@[simp] theorem length_beBytes (n v : Nat) : (beBytes n v).length = n := by
  induction n generalizing v with
  | zero => rfl
  | succ n ih => simp [beBytes, ih]

theorem beNat_append (bs : Bytes) (b : Byte) : beNat (bs ++ [b]) = beNat bs * 256 + b.toNat := by
  simp [beNat]

/-- Reading back big-endian bytes gives the value, cut to their width (rule R54). -/
theorem beNat_beBytes (n v : Nat) : beNat (beBytes n v) = v % 256 ^ n := by
  induction n generalizing v with
  | zero => simp [beBytes, beNat, Nat.mod_one]
  | succ n ih =>
    have h : v % 256 ^ (n + 1) = v % 256 + 256 * (v / 256 % 256 ^ n) := by
      rw [Nat.pow_succ, Nat.mul_comm, Nat.mod_mul]
    rw [beBytes, beNat_append, ih, BitVec.toNat_ofNat, h]
    norm_num
    omega

/-- A byte string spells a number below `256` to its length. -/
theorem beNat_lt (l : Bytes) : beNat l < 256 ^ l.length := by
  induction l using List.reverseRecOn with
  | nil => simp [beNat]
  | append_singleton l b ih =>
    have := b.isLt
    rw [beNat_append, List.length_append, List.length_singleton, Nat.pow_succ]
    omega

/-- The number a byte string spells, as a sum over its bytes (rules R54, R111). -/
theorem beNat_eq_sum (l : Bytes) :
    beNat l = ((List.range l.length).map fun q =>
      (l.getD q 0).toNat * 2 ^ (8 * (l.length - 1 - q))).sum := by
  induction l using List.reverseRecOn with
  | nil => rfl
  | append_singleton l b ih =>
    rw [beNat_append, ih, List.length_append, List.length_singleton, List.range_succ,
      List.map_append, List.sum_append, ← List.sum_map_mul_right]
    congr 1
    · refine congrArg List.sum (List.map_congr_left fun q hq => ?_)
      have hq := List.mem_range.1 hq
      rw [Nat.mul_assoc, show (256 : Nat) = 2 ^ 8 from rfl, ← Nat.pow_add]
      simp only [List.getD, List.getElem?_append_left hq]
      congr 2
      omega
    · simp [List.getD]

/-- Byte `q` of the big-endian form of a word: `x[63 - 8q : 56 - 8q]` (rule R115). -/
theorem getD_beBytes (x : Word) {q : Nat} (hq : q < 8) :
    (beBytes 8 x.toNat).getD q 0 = x.extractLsb' (56 - 8 * q) 8 := by
  have : q = 0 ∨ q = 1 ∨ q = 2 ∨ q = 3 ∨ q = 4 ∨ q = 5 ∨ q = 6 ∨ q = 7 := by omega
  rcases this with rfl | rfl | rfl | rfl | rfl | rfl | rfl | rfl <;>
    · apply BitVec.eq_of_toNat_eq
      simp [beBytes, BitVec.extractLsb'_toNat, Nat.shiftRight_eq_div_pow, Nat.div_div_eq_div_mul]

/-! ### Padding -/

/-- The padding fills the last block (rule R110). -/
theorem padZeros_fills (len : Nat) : (len + 1 + padZeros len + 16) % 128 = 0 := by
  unfold padZeros
  omega

theorem padZeros_lt (len : Nat) : padZeros len < 128 := Nat.mod_lt _ (by omega)

theorem length_pad (m : Bytes) : (pad m).length = m.length + 1 + padZeros m.length + 16 := by
  simp [pad]
  omega

/-- The padded message is a whole number of blocks (rules R110, R120). -/
theorem length_pad_blocks (m : Bytes) : (pad m).length = 128 * blockCount m.length := by
  rw [length_pad]
  unfold padZeros blockCount
  omega

@[simp] theorem length_blockWords (b : Bytes) : (blockWords b).length = 16 := by simp [blockWords]

/-! ### The schedule -/

/-- Extending a schedule keeps the words it has. -/
theorem getD_extendSchedule_old (n : Nat) :
    ∀ (w : List Word) (t : Nat), t < w.length → (extendSchedule n w).getD t 0 = w.getD t 0 := by
  induction n with
  | zero => intro w t _; rfl
  | succ n ih =>
    intro w t ht
    rw [extendSchedule, ih _ _ (by simp; omega)]
    simp [List.getD, List.getElem?_append_left ht]

theorem length_extendSchedule (n : Nat) (w : List Word) :
    (extendSchedule n w).length = w.length + n := by
  induction n generalizing w with
  | zero => rfl
  | succ n ih =>
    rw [extendSchedule, ih]
    simp
    omega

theorem length_schedule {m : List Word} (h : m.length = 16) : (schedule m).length = 80 := by
  rw [schedule, length_extendSchedule, h]

@[simp] theorem length_kTable : kTable.length = 80 := rfl

/-! ### Output -/

@[simp] theorem length_toBytes (x : Octet) : x.toBytes.length = 64 := by simp [Octet.toBytes]

theorem length_hexEnc (d : Bytes) : (hexEnc d).length = 2 * d.length := by
  simp [hexEnc, List.length_flatMap]
  omega

@[simp] theorem length_sha512Hex (m : Bytes) : (sha512Hex m).length = 128 := by
  simp [sha512Hex, sha512, length_hexEnc]

/-- The byte is a lowercase hex digit (rule R76). -/
def IsHexText (b : Byte) : Prop :=
  (0x30 ≤ b.toNat ∧ b.toNat ≤ 0x39) ∨ (0x61 ≤ b.toNat ∧ b.toNat ≤ 0x66)

theorem hexDigit_isHexText : ∀ v : BitVec 4, IsHexText (hexDigit v) := by
  unfold IsHexText
  decide

/-- Every byte of a hex encoding is a lowercase hex digit (rule R117). -/
theorem hexEnc_isHexText {d : Bytes} {b : Byte} (h : b ∈ hexEnc d) : IsHexText b := by
  simp only [hexEnc, List.mem_flatMap, List.mem_cons, List.not_mem_nil, or_false] at h
  obtain ⟨_, _, rfl | rfl⟩ := h <;> exact hexDigit_isHexText _

/-! ### The stretch -/

/-- One more application at the end (rule R132). -/
theorem rehash_succ (n : Nat) (digest : Bytes) :
    rehash (n + 1) digest = sha512Hex (rehash n digest) := by
  induction n generalizing digest with
  | zero => rfl
  | succ n ih => rw [rehash, ih, ← rehash]

theorem length_rehash {n : Nat} (hn : 0 < n) (digest : Bytes) : (rehash n digest).length = 128 := by
  obtain ⟨k, rfl⟩ : ∃ k, n = k + 1 := ⟨n - 1, by omega⟩
  rw [rehash_succ, length_sha512Hex]

@[simp] theorem length_stretch (secret salt : Bytes) : (stretch secret salt).length = 128 :=
  length_rehash (by decide) _

end Sys2Proof.Machine
end

