-- ==== Sys2Proof/Laws/Commands.lean ====
section
/-!
SUPPORT. What the entropy port, the commands and the step can do, said once each.
-/

namespace Sys2Proof.Machine

/-! ### Operands -/

@[simp] theorem length_secretOf (s : State) : (secretOf s).length = s.slen.toNat := by
  simp [secretOf, memRead]

@[simp] theorem length_storedOf (s : State) : (storedOf s).length = s.dlen.toNat := by
  simp [storedOf, memRead]

theorem getD_secretOf (s : State) {i : Nat} (h : i < s.slen.toNat) :
    (secretOf s).getD i 0 = s.sec.read i := by
  simpa [secretOf, memRead, State.buffer] using getD_readBytes s.sec 0 s.slen.toNat i h 0

theorem getD_storedOf (s : State) {i : Nat} (h : i < s.dlen.toNat) :
    (storedOf s).getD i 0 = s.dig.read i := by
  simpa [storedOf, memRead, State.buffer] using getD_readBytes s.dig 0 s.dlen.toNat i h 0

/-- The secret is a function of `SLEN` and the bytes below it (rule R68). -/
theorem secretOf_congr {s u : State} (hl : u.slen = s.slen)
    (h : ∀ i, i < s.slen.toNat → u.sec.read i = s.sec.read i) : secretOf u = secretOf s := by
  simp only [secretOf, memRead, State.buffer, hl]
  exact readBytes_congr fun i hi => by simpa using h i hi

/-- The stored string is a function of `DLEN` and the bytes below it (rule R68). -/
theorem storedOf_congr {s u : State} (hl : u.dlen = s.dlen)
    (h : ∀ i, i < s.dlen.toNat → u.dig.read i = s.dig.read i) : storedOf u = storedOf s := by
  simp only [storedOf, memRead, State.buffer, hl]
  exact readBytes_congr fun i hi => by simpa using h i hi

theorem secTooLong_congr {s u : State} (hl : u.slen = s.slen) (hc : u.secMax = s.secMax) :
    secTooLong u = secTooLong s := by simp [secTooLong, hl, hc]

theorem digTooLong_congr {s u : State} (hl : u.dlen = s.dlen) (hc : u.digMax = s.digMax) :
    digTooLong u = digTooLong s := by simp [digTooLong, hl, hc]

/-! ### The entropy port -/

/-- The state after `n` requests: the answers listed are used up, in order, and counted. -/
def afterDraws (n : Nat) (s : State) : State :=
  { s with entropy := s.entropy.drop n, draws := s.draws + n }

theorem afterDraws_zero (s : State) : afterDraws 0 s = s := rfl

/-- One request gives answer 0 and leaves the rest (rule R213). -/
theorem drawSymbol_eq (s : State) : drawSymbol s = (s.answer 0, afterDraws 1 s) := by
  unfold drawSymbol State.answer afterDraws
  cases h : s.entropy with
  | nil => simp
  | cons d ds => simp

theorem answer_afterDraws (n j : Nat) (s : State) :
    (afterDraws n s).answer j = s.answer (n + j) := by
  simp only [State.answer, afterDraws, List.getD, List.getElem?_drop, Nat.add_assoc]

theorem afterDraws_afterDraws (m n : Nat) (s : State) :
    afterDraws m (afterDraws n s) = afterDraws (n + m) s := by
  simp only [afterDraws, List.drop_drop, Nat.add_assoc]

/-- Symbols to the end: the salt, all requests made (rule R130). -/
theorem saltLoop_symbols (v : Nat → Fin 62) :
    ∀ (n : Nat) (salt : Bytes) (s : State), (∀ j, j < n → s.answer j = .symbol (v j)) →
      saltLoop n salt s =
        (some (salt ++ (List.range n).map fun j => alpha (v j)), afterDraws n s) := by
  intro n
  induction n generalizing v with
  | zero => intro salt s _; simp [saltLoop, afterDraws_zero]
  | succ n ih =>
    intro salt s h
    rw [saltLoop, drawSymbol_eq, h 0 (by omega)]
    show saltLoop n (salt ++ [alpha (v 0)]) (afterDraws 1 s) = _
    rw [ih (fun j => v (j + 1)) _ _ fun j hj => by
      rw [answer_afterDraws, show 1 + j = j + 1 by omega]; exact h (j + 1) (by omega)]
    rw [afterDraws_afterDraws, List.range_succ_eq_map, List.map_cons, List.map_map,
      show 1 + n = n + 1 by omega]
    simp [Function.comp_def]

/-- A request that fails ends the generation (rule R130). -/
theorem saltLoop_fails :
    ∀ (n : Nat) (salt : Bytes) (s : State) (m : Nat), m < n → s.answer m = .fail →
      (∀ j, j < m → s.answer j ≠ .fail) → saltLoop n salt s = (none, afterDraws (m + 1) s) := by
  intro n
  induction n with
  | zero => intro _ _ m hm; omega
  | succ n ih =>
    intro salt s m hm hf hs
    rw [saltLoop, drawSymbol_eq]
    cases m with
    | zero => rw [hf]
    | succ m =>
      cases h0 : s.answer 0 with
      | fail => exact absurd h0 (hs 0 (by omega))
      | symbol x =>
        show saltLoop n (salt ++ [alpha x]) (afterDraws 1 s) = _
        rw [ih _ (afterDraws 1 s) m (by omega)
          (by rw [answer_afterDraws, show 1 + m = m + 1 by omega]; exact hf)
          fun j hj => by
            rw [answer_afterDraws]
            exact hs (1 + j) (by omega)]
        rw [afterDraws_afterDraws, show 1 + (m + 1) = m + 1 + 1 by omega]

/-- Either the next 21 answers are all symbols, or one of them is the first to fail. -/
theorem draws_cases (s : State) : (∃ v, s.drawsSalt v) ∨ ∃ m, s.drawsFailAt m := by
  by_cases h : ∃ m, m < Config.saltLen ∧ s.answer m = .fail
  · right
    classical
    refine ⟨Nat.find h, (Nat.find_spec h).1, (Nat.find_spec h).2, fun j hj hf => ?_⟩
    exact Nat.find_min h hj ⟨lt_trans hj (Nat.find_spec h).1, hf⟩
  · left
    refine ⟨fun j => match s.answer j with | .symbol x => x | .fail => 0, fun j hj => ?_⟩
    cases hj' : s.answer j with
    | symbol x => simp only [hj']
    | fail => exact absurd ⟨j, hj, hj'⟩ h

theorem saltGen_symbols {s : State} {v : Nat → Fin 62} (h : s.drawsSalt v) :
    saltGen s = (some (saltOf v), afterDraws Config.saltLen s) := by
  simpa [saltGen, saltOf] using saltLoop_symbols v Config.saltLen [] s h

theorem saltGen_fails {s : State} {m : Nat} (h : s.drawsFailAt m) :
    saltGen s = (none, afterDraws (m + 1) s) :=
  saltLoop_fails Config.saltLen [] s m h.1 h.2.1 h.2.2

@[simp] theorem length_saltOf (v : Nat → Fin 62) : (saltOf v).length = 21 := by
  simp [saltOf, Config.saltLen]

theorem getD_saltOf (v : Nat → Fin 62) {i : Nat} (h : i < 21) :
    (saltOf v).getD i 0 = alpha (v i) := by
  simp [saltOf, List.getD, Config.saltLen, h]

/-! ### The commands, in the form the proofs use -/

theorem hashCompletion_long {s : State} (h : secTooLong s = true) :
    hashCompletion s = hashError .lengthError s := by simp [hashCompletion, h]

theorem hashCompletion_fails {s : State} (h : secTooLong s = false) {m : Nat}
    (hm : s.drawsFailAt m) :
    hashCompletion s = hashError .entropyFailure (afterDraws (m + 1) s) := by
  simp [hashCompletion, h, saltGen_fails hm]

theorem hashCompletion_symbols {s : State} (h : secTooLong s = false) {v : Nat → Fin 62}
    (hv : s.drawsSalt v) :
    hashCompletion s =
      finishHash (saltOf v) (stretch (secretOf s) (saltOf v)) (afterDraws 21 s) := by
  simp [hashCompletion, h, saltGen_symbols hv, Config.saltLen]

/-- What HASH can do: refuse the length, fail on a draw, or complete. -/
theorem hashCompletion_cases (s : State) :
    (secTooLong s = true ∧ hashCompletion s = hashError .lengthError s)
    ∨ (∃ m, secTooLong s = false ∧ s.drawsFailAt m
        ∧ hashCompletion s = hashError .entropyFailure (afterDraws (m + 1) s))
    ∨ ∃ v, secTooLong s = false ∧ s.drawsSalt v
        ∧ hashCompletion s =
            finishHash (saltOf v) (stretch (secretOf s) (saltOf v)) (afterDraws 21 s) := by
  cases h : secTooLong s
  · rcases draws_cases s with ⟨v, hv⟩ | ⟨m, hm⟩
    · exact .inr (.inr ⟨v, rfl, hv, hashCompletion_symbols h hv⟩)
    · exact .inr (.inl ⟨m, rfl, hm, hashCompletion_fails h hm⟩)
  · exact .inl ⟨rfl, hashCompletion_long h⟩

theorem verifyCompletion_long {s : State} (h : eitherTooLong s = true) :
    verifyCompletion s = verifyError .lengthError s := by simp [verifyCompletion, h]

theorem length_extractSalt (stored : Bytes) : (extractSalt stored).length = min 21 stored.length := by
  simp [extractSalt, Config.saltLen]

theorem length_reconstruct (secret stored : Bytes) :
    (reconstruct secret stored).length = min 21 stored.length + 128 := by
  simp [reconstruct, length_extractSalt]

theorem verifyCompletion_compares {s : State} (h : eitherTooLong s = false) :
    verifyCompletion s =
      finishVerify (decide (reconstruct (secretOf s) (storedOf s) = storedOf s))
        (min 149 s.dlen.toNat) s := by
  have h1 : (reconstruct (secretOf s) (storedOf s)).length < 2 ^ 64 := by
    rw [length_reconstruct]; omega
  have h2 : (storedOf s).length < 2 ^ 64 := by
    rw [length_storedOf]; exact s.dlen.isLt
  simp only [verifyCompletion, h, verifyStrings, slowEquals_fst h1 h2]
  simp only [slowEquals, slowLoop_count, length_reconstruct, length_storedOf]
  simp only [Bool.false_eq_true, if_false]
  congr 1
  omega

theorem cmpeqCompletion_long {s : State} (h : eitherTooLong s = true) :
    cmpeqCompletion s = cmpeqError .lengthError s := by simp [cmpeqCompletion, h]

theorem cmpeqCompletion_compares {s : State} (h : eitherTooLong s = false) :
    cmpeqCompletion s =
      finishCmpeq (decide (secretOf s = storedOf s)) (min s.slen.toNat s.dlen.toNat) s := by
  have h1 : (secretOf s).length < 2 ^ 64 := by rw [length_secretOf]; exact s.slen.isLt
  have h2 : (storedOf s).length < 2 ^ 64 := by rw [length_storedOf]; exact s.dlen.isLt
  simp only [cmpeqCompletion, h, slowEquals_fst h1 h2]
  simp [slowEquals, slowLoop_count]

/-- The completion of a command. -/
def completion (i : Instr) (s : State) : State :=
  match i with
  | .hash => hashCompletion s
  | .verify => verifyCompletion s
  | .cmpeq => cmpeqCompletion s

theorem exec_eq (i : Instr) (s : State) : exec i s = .next (completion i s) := by
  cases i <;> rfl

/-- What a step can do (rules R185, R186, R240). -/
theorem step_cases {s t : State} (h : step s = .next t) :
    (t = outsideMove s ∧ (s.phase = .idle ∨ resetPending s = true))
    ∨ (s.phase = .run ∧ resetPending s = false
        ∧ ((∃ i, decode s.cmdlatch = .command i ∧ t = completion i (passWait s))
          ∨ ((∃ why, decode s.cmdlatch = .illegal why) ∧ t = completeIllegal (passWait s)))) := by
  unfold step at h
  have hl : (passWait s).cmdlatch = s.cmdlatch := by unfold passWait; split <;> rfl
  split at h
  · next hp => exact .inl ⟨(Host.Outcome.next.inj h).symm, .inl hp⟩
  · next hp =>
    split at h
    · next hr => exact .inl ⟨(Host.Outcome.next.inj h).symm, .inr hr⟩
    · next hr =>
      refine .inr ⟨hp, by simpa using hr, ?_⟩
      unfold completeLatched at h
      rw [hl] at h
      split at h
      · next i hi =>
        rw [exec_eq] at h
        exact .inl ⟨i, hi, (Host.Outcome.next.inj h).symm⟩
      · next why hi => exact .inr ⟨⟨why, hi⟩, (Host.Outcome.next.inj h).symm⟩

end Sys2Proof.Machine
end

