-- ==== Sys2Proof/Laws/PerInstr.lean ====
section
/-!
SUPPORT. What is said of every instruction as syntax, one lemma per constructor.
-/

namespace Sys2Proof.Laws.Encoding

/-- The word of a command is well formed: `RSV` is zero, `OP` is the command's own code and one of the
three that rule R71 assigns (rules R70, R71). -/
def Statement (i : Instr) : Prop :=
  i.wellFormed = true ∧ wellFormedWord (encode i) = true
    ∧ rsvField (encode i) = 0 ∧ opField (encode i) = opcodeOf i
    ∧ 1 ≤ (opcodeOf i).toNat ∧ (opcodeOf i).toNat ≤ 3

theorem hash : Statement .hash := by
  unfold Statement
  decide

theorem verify : Statement .verify := by
  unfold Statement
  decide

theorem cmpeq : Statement .cmpeq := by
  unfold Statement
  decide

end Sys2Proof.Laws.Encoding
end

