-- ==== Sys2Proof/Laws/Sequencer.lean ====
section
/-!
SUPPORT. The stages of the sequencer's walk: each says which positions it visits and what it leaves in
the working registers.
-/

namespace Sys2Proof.Machine

/-! ### Walks -/

/-- From `s` the sequencer visits the positions `ps`, one a step, and is then in `t`. -/
def Walks (ps : List Pos) (s t : State) : Prop :=
  ∀ n, seqRun (ps.length + n) s = seqRun n t ∧ seqTrace (ps.length + n) s = ps ++ seqTrace n t

theorem Walks.nil (s : State) : Walks [] s s := fun n => by simp

theorem Walks.trans {ps qs : List Pos} {s t u : State} (h : Walks ps s t) (h' : Walks qs t u) :
    Walks (ps ++ qs) s u := by
  intro n
  obtain ⟨h1, h2⟩ := h (qs.length + n)
  obtain ⟨h3, h4⟩ := h' n
  rw [List.length_append, Nat.add_assoc]
  exact ⟨h1.trans h3, by rw [h2, h4, List.append_assoc]⟩

/-- One internal step in phase RUN visits the position it starts from. -/
theorem Walks.step {s : State} (h : s.phase = .run) : Walks [s.work.seq] s (seqStep s) := by
  intro n
  rw [show ([s.work.seq] : List Pos).length + n = n + 1 by simp [Nat.add_comm]]
  exact ⟨rfl, by simp [seqTrace, h]⟩

theorem seqStep_idle {s : State} (h : s.phase = .idle) : seqStep s = s := by simp [seqStep, h]

theorem seqRun_idle {s : State} (h : s.phase = .idle) (n : Nat) : seqRun n s = s := by
  induction n with
  | zero => rfl
  | succ n ih => rw [seqRun, seqStep_idle h, ih]

theorem seqTrace_idle {s : State} (h : s.phase = .idle) (n : Nat) : seqTrace n s = [] := by
  cases n with
  | zero => rfl
  | succ n => simp [seqTrace, h]

/-- A walk that ends in phase IDLE is the whole run and the whole trace, however long one looks. -/
theorem Walks.complete {ps : List Pos} {s t : State} (h : Walks ps s t) (ht : t.phase = .idle)
    {n : Nat} (hn : ps.length ≤ n) : seqRun n s = t ∧ seqTrace n s = ps := by
  obtain ⟨k, rfl⟩ : ∃ k, n = ps.length + k := ⟨n - ps.length, by omega⟩
  obtain ⟨h1, h2⟩ := h k
  rw [h1, h2, seqRun_idle ht, seqTrace_idle ht, List.append_nil]
  exact ⟨rfl, rfl⟩

/-! ### Inside a command -/

/-- The state with these working registers. -/
def withWork (w : Work) (s : State) : State := { s with work := w }

@[simp] theorem withWork_work (w : Work) (s : State) : (withWork w s).work = w := rfl

@[simp] theorem withWork_phase (w : Work) (s : State) : (withWork w s).phase = s.phase := rfl

/-- A command is latched and running. -/
structure Running (i : Instr) (s : State) : Prop where
  phase : s.phase = .run
  latched : decode s.cmdlatch = .command i

theorem Running.seqStep_eq {i : Instr} {s : State} (h : Running i s) :
    seqStep s = seqMove i s := by simp [seqStep, h.phase, h.latched]

theorem Running.withWork {i : Instr} {s : State} (h : Running i s) (w : Work) :
    Running i (withWork w s) := ⟨h.phase, h.latched⟩

theorem Running.afterDraws {i : Instr} {s : State} (h : Running i s) (n : Nat) :
    Running i (afterDraws n s) := ⟨h.phase, h.latched⟩

/-- One step of a running command, at a known position. -/
theorem Running.walk {i : Instr} {s : State} (h : Running i s) {p : Pos} (hp : s.work.seq = p)
    {t : State} (ht : seqMove i s = t) : Walks [p] s t := by
  have := Walks.step h.phase
  rwa [hp, h.seqStep_eq, ht] at this

/-! ### One block -/

theorem toList_exactly {α : Type} {n : Nat} (d : α) {l : List α} (h : l.length = n) :
    (exactly n d l).toList = l := by
  apply List.ext_getElem
  · simp [h]
  · intro i h1 h2
    simp [exactly, h2]

/-- The round variables after the first `t` rounds (rule R114). -/
def roundsUpTo (hv : Octet) (ws : List Word) (t : Nat) : Octet :=
  rounds hv ((kTable.zip ws).take t)

theorem roundsUpTo_succ (hv : Octet) {ws : List Word} (hw : ws.length = 80) {t : Nat} (ht : t < 80) :
    roundsUpTo hv ws (t + 1) = hashRound (roundsUpTo hv ws t) (kTable.getD t 0) (ws.getD t 0) := by
  have h1 : t < kTable.length := by simpa using ht
  have h2 : t < ws.length := by omega
  have h3 : t < (kTable.zip ws).length := by rw [List.length_zip]; omega
  unfold roundsUpTo rounds
  rw [← List.take_append_getElem h3, List.foldl_append]
  simp only [List.foldl_cons, List.foldl_nil, List.getElem_zip, List.getD,
    List.getElem?_eq_getElem h1, List.getElem?_eq_getElem h2, Option.getD_some]

theorem roundsUpTo_all (hv : Octet) {ws : List Word} (hw : ws.length = 80) :
    roundsUpTo hv ws 80 = rounds hv (kTable.zip ws) := by
  unfold roundsUpTo
  rw [List.take_of_length_le]
  simp [hw]

/-- The working registers in the middle of a block: `t` rounds done, round `t` to come. -/
structure InBlock (k blk t : Nat) (hv : Octet) (m salt : Bytes) (w : Work) : Prop where
  seq : w.seq = .iter k blk t
  h : w.h = hv
  msg : w.msg = m
  salt : w.salt = salt
  sched : 0 < t → w.w.toList = schedule (blockWords (block (pad m) blk))
  vars : 0 < t → w.vars = roundsUpTo hv (schedule (blockWords (block (pad m) blk))) t

/-- After a block: the next block, or the hex text when it was the last. -/
def afterBlock (k blk : Nat) (m : Bytes) : Pos :=
  if blk + 1 < blockCount m.length then .iter k (blk + 1) 0 else .hex k

/-- One round of a block, whether it is the first or not. -/
theorem workRound_inBlock {k blk t : Nat} {hv : Octet} {m salt : Bytes} {w : Work} (s : State)
    (hw : InBlock k blk t hv m salt w) (ht : t < 80) :
    ∃ w', workRound t (if t = 0 then loadBlock blk (withWork w s) else withWork w s)
        = withWork w' s
      ∧ w'.h = hv ∧ w'.msg = m ∧ w'.salt = salt
      ∧ w'.w.toList = schedule (blockWords (block (pad m) blk))
      ∧ w'.vars = roundsUpTo hv (schedule (blockWords (block (pad m) blk))) (t + 1) := by
  have hl : (schedule (blockWords (block (pad m) blk))).length = 80 :=
    length_schedule (length_blockWords _)
  by_cases h0 : t = 0
  · subst h0
    refine ⟨_, rfl, hw.h, hw.msg, hw.salt, ?_, ?_⟩
    · show (exactly 80 0 (schedule (blockWords (block (pad w.msg) blk)))).toList = _
      rw [hw.msg, toList_exactly 0 hl]
    · show hashRound w.h (kTable.getD 0 0)
        ((exactly 80 0 (schedule (blockWords (block (pad w.msg) blk)))).toList.getD 0 0) = _
      rw [hw.msg, toList_exactly 0 hl, hw.h, roundsUpTo_succ hv hl ht]
      rfl
  · refine ⟨(workRound t (withWork w s)).work, by rw [if_neg h0]; rfl, hw.h, hw.msg, hw.salt, hw.sched (by omega), ?_⟩
    show hashRound w.vars (kTable.getD t 0) (w.w.toList.getD t 0) = _
    rw [hw.sched (by omega), hw.vars (by omega), roundsUpTo_succ hv hl ht]

/-- From round `t` to the end of the block. -/
theorem walks_rounds {i : Instr} {s : State} (hr : Running i s) {k blk : Nat} {hv : Octet}
    {m salt : Bytes} :
    ∀ (r t : Nat) {w : Work}, t + (r + 1) = 80 → InBlock k blk t hv m salt w →
      ∃ w', Walks ((List.range' t (r + 1)).map fun u => .iter k blk u) (withWork w s)
          (withWork w' s)
        ∧ w'.seq = afterBlock k blk m
        ∧ w'.h = compress hv (blockWords (block (pad m) blk)) ∧ w'.msg = m ∧ w'.salt = salt := by
  intro r
  induction r with
  | zero =>
    intro t w ht hw
    obtain rfl : t = 79 := by omega
    have hl : (schedule (blockWords (block (pad m) blk))).length = 80 :=
      length_schedule (length_blockWords _)
    obtain ⟨w1, h1, hh, hm, hs, _, hvars⟩ := workRound_inBlock s hw (by omega)
    refine ⟨{ w1 with h := w1.h.add w1.vars, seq := afterBlock k blk m },
      (hr.withWork w).walk hw.seq ?_, rfl, ?_, hm, hs⟩
    · show seqMove i (withWork w s) = _
      simp only [seqMove, withWork_work, hw.seq, seqIter, h1, hw.msg]
      rw [if_neg (by omega)]
      by_cases hb : blk + 1 < blockCount m.length
      · rw [if_pos hb, afterBlock, if_pos hb]
        rfl
      · rw [if_neg hb, afterBlock, if_neg hb]
        rfl
    · show w1.h.add w1.vars = _
      rw [hh, hvars, roundsUpTo_all hv hl]
      rfl
  | succ r ih =>
    intro t w ht hw
    obtain ⟨w1, h1, hh, hm, hs, hsched, hvars⟩ := workRound_inBlock s hw (by omega)
    obtain ⟨w2, h2, hrest⟩ := ih (t + 1) (w := { w1 with seq := .iter k blk (t + 1) }) (by omega)
      ⟨rfl, hh, hm, hs, fun _ => hsched, fun _ => hvars⟩
    refine ⟨w2, ?_, hrest⟩
    have hstep : Walks [.iter k blk t] (withWork w s)
        (withWork { w1 with seq := .iter k blk (t + 1) } s) := by
      refine (hr.withWork w).walk hw.seq ?_
      simp only [seqMove, withWork_work, hw.seq, seqIter, h1]
      rw [if_pos (by omega)]
      rfl
    have := hstep.trans h2
    rwa [List.range'_succ, List.map_cons]

/-- One block: its eighty rounds and the new chaining value (rule R114). -/
theorem walks_block {i : Instr} {s : State} (hr : Running i s) {k blk : Nat} {w : Work}
    (hseq : w.seq = .iter k blk 0) :
    ∃ w', Walks ((List.range 80).map fun t => .iter k blk t) (withWork w s) (withWork w' s)
      ∧ w'.seq = afterBlock k blk w.msg
      ∧ w'.h = compress w.h (blockWords (block (pad w.msg) blk))
      ∧ w'.msg = w.msg ∧ w'.salt = w.salt := by
  have := walks_rounds hr (k := k) (blk := blk) (hv := w.h) (m := w.msg) (salt := w.salt) 79 0
    (w := w) (by omega) ⟨hseq, rfl, rfl, rfl, by omega, by omega⟩
  rwa [← List.range_eq_range'] at this

/-! ### One application of SHA-512 -/

/-- The chaining value after the first `n` blocks (rule R115). -/
def hashUpTo (m : Bytes) (n : Nat) : Octet :=
  (List.range n).foldl (fun hv j => compress hv (blockWords (block (pad m) j))) iv

theorem hashUpTo_succ (m : Bytes) (n : Nat) :
    hashUpTo m (n + 1) = compress (hashUpTo m n) (blockWords (block (pad m) n)) := by
  simp [hashUpTo, List.range_succ]

theorem walkBlocks_succ (k n : Nat) :
    walkBlocks k (n + 1) = walkBlocks k n ++ (List.range 80).map fun t => .iter k n t := by
  unfold walkBlocks
  rw [List.range_succ (n := n), List.flatMap_append]
  simp only [List.flatMap_cons, List.flatMap_nil, List.append_nil]

/-- The first `n + 1` blocks of a message, at least one and at most all. -/
theorem walks_blocks {i : Instr} {s : State} (hr : Running i s) {k : Nat} {w : Work}
    (hseq : w.seq = .iter k 0 0) (hiv : w.h = iv) :
    ∀ n, n < blockCount w.msg.length →
      ∃ w', Walks (walkBlocks k (n + 1)) (withWork w s) (withWork w' s)
        ∧ w'.seq = afterBlock k n w.msg ∧ w'.h = hashUpTo w.msg (n + 1)
        ∧ w'.msg = w.msg ∧ w'.salt = w.salt := by
  intro n
  induction n with
  | zero =>
    intro _
    obtain ⟨w', h1, h2, h3, h4, h5⟩ := walks_block hr hseq
    refine ⟨w', ?_, h2, ?_, h4, h5⟩
    · rw [walkBlocks_succ]
      exact (Walks.nil _).trans h1
    · rw [h3, hiv, hashUpTo_succ]
      rfl
  | succ n ih =>
    intro hn
    obtain ⟨w1, h1, h2, h3, h4, h5⟩ := ih (by omega)
    have hs1 : w1.seq = .iter k (n + 1) 0 := by rw [h2, afterBlock, if_pos hn]
    obtain ⟨w', g1, g2, g3, g4, g5⟩ := walks_block hr hs1
    refine ⟨w', ?_, by rw [g2, h4], ?_, g4.trans h4, g5.trans h5⟩
    · rw [walkBlocks_succ]
      exact h1.trans g1
    · rw [g3, h3, h4, ← hashUpTo_succ]

/-- All blocks of a message: the position `S_HEX(k)`, with the hash in `H` (rule R115). -/
theorem walks_sha512 {i : Instr} {s : State} (hr : Running i s) {k : Nat} {w : Work}
    (hseq : w.seq = .iter k 0 0) (hiv : w.h = iv) :
    ∃ w', Walks (walkBlocks k (blockCount w.msg.length)) (withWork w s) (withWork w' s)
      ∧ w'.seq = .hex k ∧ hexEnc w'.h.toBytes = sha512Hex w.msg ∧ w'.salt = w.salt := by
  obtain ⟨n, hn⟩ : ∃ n, blockCount w.msg.length = n + 1 := ⟨_, rfl⟩
  obtain ⟨w', h1, h2, h3, _, h5⟩ := walks_blocks hr hseq hiv n (by omega)
  refine ⟨w', by rwa [hn], ?_, ?_, h5⟩
  · rw [h2, afterBlock, if_neg (by omega)]
  · rw [h3, ← hn]
    rfl

/-! ### The stretch -/

/-- The working registers as an iteration begins (rules R115, R132). -/
def iterationWork (k : Nat) (msg : Bytes) (w : Work) : Work :=
  { w with
    h := iv
    msg := msg
    mlen := BitVec.ofNat 128 (8 * msg.length)
    k := BitVec.ofNat 5 k
    seq := .iter k 0 0 }

theorem startIteration_withWork (k : Nat) (msg : Bytes) (w : Work) (s : State) :
    startIteration k msg (withWork w s) = withWork (iterationWork k msg w) s := rfl

/-- The working registers as a comparison begins (rule R160). -/
def compareWork (a b : Bytes) (w : Work) : Work :=
  { w with
    diff := lengthDiff a b
    i := 0
    n := BitVec.ofNat 64 (min a.length b.length)
    seq := .cmp 0 }

theorem startCompare_withWork (a b : Bytes) (w : Work) (s : State) :
    startCompare a b (withWork w s) = withWork (compareWork a b w) s := rfl

/-- One iteration that is not the last: the next one begins on the hex text (rule R133). -/
theorem walks_iteration {i : Instr} {s : State} (hr : Running i s) {k : Nat} {w : Work}
    (hk : k < Config.stretches) (hseq : w.seq = .iter k 0 0) (hiv : w.h = iv) :
    ∃ w', Walks (walkBlocks k (blockCount w.msg.length) ++ [.hex k]) (withWork w s) (withWork w' s)
      ∧ w'.seq = .iter (k + 1) 0 0 ∧ w'.h = iv ∧ w'.msg = sha512Hex w.msg ∧ w'.salt = w.salt := by
  obtain ⟨w1, h1, h2, h3, h4⟩ := walks_sha512 hr hseq hiv
  have hm : seqMove i (withWork w1 s) = withWork (iterationWork (k + 1) (sha512Hex w.msg)
      { w1 with hexbuf := exactly 128 0 (sha512Hex w.msg) }) s := by
    simp only [seqMove, withWork_work, h2, seqHex, h3]
    rw [if_pos hk, toList_exactly 0 (length_sha512Hex _)]
    rfl
  exact ⟨_, h1.trans ((hr.withWork w1).walk h2 hm), rfl, rfl, rfl, h4⟩

/-- The positions of the first `j` iterations of a stretch. -/
def walkIterations (len j : Nat) : List Pos :=
  (List.range j).flatMap fun j =>
    walkBlocks (j + 1) (blockCount (if j = 0 then len else Config.hexLen)) ++ [.hex (j + 1)]

theorem walkIterations_succ (len j : Nat) :
    walkIterations len (j + 1) = walkIterations len j
      ++ (walkBlocks (j + 1) (blockCount (if j = 0 then len else Config.hexLen))
        ++ [.hex (j + 1)]) := by
  simp [walkIterations, List.range_succ]

theorem walkStretch_eq (len : Nat) : walkStretch len = walkIterations len Config.stretches := rfl

theorem length_rehash_eq (j : Nat) (m : Bytes) :
    (rehash j m).length = if j = 0 then m.length else Config.hexLen := by
  split
  · next h => subst h; rfl
  · exact length_rehash (by omega) m

/-- The first `j` iterations, all but the last at most (rules R132, R133). -/
theorem walks_iterations {i : Instr} {s : State} (hr : Running i s) {w : Work}
    (hseq : w.seq = .iter 1 0 0) (hiv : w.h = iv) :
    ∀ j, j < Config.stretches →
      ∃ w', Walks (walkIterations w.msg.length j) (withWork w s) (withWork w' s)
        ∧ w'.seq = .iter (j + 1) 0 0 ∧ w'.h = iv ∧ w'.msg = rehash j w.msg
        ∧ w'.salt = w.salt := by
  intro j
  induction j with
  | zero => intro _; exact ⟨w, Walks.nil _, hseq, hiv, rfl, rfl⟩
  | succ j ih =>
    intro hj
    obtain ⟨w1, h1, h2, h3, h4, h5⟩ := ih (by omega)
    obtain ⟨w', g1, g2, g3, g4, g5⟩ := walks_iteration hr (k := j + 1) hj h2 h3
    refine ⟨w', ?_, g2, g3, by rw [g4, h4, rehash_succ], g5.trans h5⟩
    rw [h4, length_rehash_eq] at g1
    rw [walkIterations_succ]
    exact h1.trans g1

/-- The whole stretch up to `S_HEX(20)`, which the command's own move follows: `H` then holds the last
hash (rule R132). -/
theorem walks_stretch {i : Instr} {s : State} (hr : Running i s) {w : Work}
    (hseq : w.seq = .iter 1 0 0) (hiv : w.h = iv) {t : State}
    (ht : ∀ w', w'.seq = .hex Config.stretches →
      hexEnc w'.h.toBytes = rehash Config.stretches w.msg → w'.salt = w.salt →
      ∃ w'', seqMove i (withWork w' s) = withWork w'' t) :
    ∃ w' w'', Walks (walkStretch w.msg.length) (withWork w s) (withWork w'' t)
      ∧ hexEnc w'.h.toBytes = rehash Config.stretches w.msg ∧ w'.salt = w.salt
      ∧ w'.seq = .hex Config.stretches ∧ seqMove i (withWork w' s) = withWork w'' t := by
  obtain ⟨w1, h1, h2, h3, h4, h5⟩ := walks_iterations hr hseq hiv 19 (by decide)
  obtain ⟨w2, g1, g2, g3, g4⟩ := walks_sha512 hr h2 h3
  have hx : hexEnc w2.h.toBytes = rehash Config.stretches w.msg := by
    rw [g3, h4, ← rehash_succ]
    rfl
  obtain ⟨w'', hw⟩ := ht w2 g2 hx (g4.trans h5)
  refine ⟨w2, w'', ?_, hx, g4.trans h5, g2, hw⟩
  rw [h4, length_rehash_eq] at g1
  rw [walkStretch_eq, show Config.stretches = 19 + 1 from rfl, walkIterations_succ]
  exact h1.trans (g1.trans ((hr.withWork w2).walk g2 hw))

/-! ### The comparison -/

/-- One more index compared (rule R160). -/
theorem slowLoop_take_succ :
    ∀ (a b : Bytes) (diff : Word) (cnt j : Nat), j < a.length → j < b.length →
      (slowLoop diff cnt (a.take (j + 1)) (b.take (j + 1))).1
        = accumulate (slowLoop diff cnt (a.take j) (b.take j)).1 (a.getD j 0) (b.getD j 0)
  | x :: a, y :: b, diff, cnt, 0, _, _ => by simp [slowLoop]
  | x :: a, y :: b, diff, cnt, j + 1, ha, hb => by
    simp only [List.length_cons, Nat.add_lt_add_iff_right] at ha hb
    have := slowLoop_take_succ a b (accumulate diff x y) (cnt + 1) j ha hb
    simpa [slowLoop] using this

theorem slowLoop_take_min (a b : Bytes) (diff : Word) (cnt : Nat) :
    slowLoop diff cnt (a.take (min a.length b.length)) (b.take (min a.length b.length))
      = slowLoop diff cnt a b := by
  induction a generalizing b diff cnt with
  | nil => simp [slowLoop]
  | cons x a ih =>
    cases b with
    | nil => simp [slowLoop]
    | cons y b =>
      simp only [List.length_cons, Nat.add_min_add_right, List.take_succ_cons, slowLoop]
      exact ih b _ _

/-- The working registers in the loop of the comparator: `j` indices compared. -/
structure InCompare (i : Instr) (a b : Bytes) (j : Nat) (s : State) (w : Work) : Prop where
  seq : w.seq = .cmp j
  n : w.n.toNat = min a.length b.length
  diff : w.diff = (slowLoop (lengthDiff a b) 0 (a.take j) (b.take j)).1
  first : seqCompareA i (withWork w s) = a
  second : storedOf s = b

/-- From index `j` to the end of the loop and out of it (rule R162). -/
theorem walks_compare {i : Instr} {s : State} (hr : Running i s) {a b : Bytes} :
    ∀ (r j : Nat) {w : Work}, j + r = min a.length b.length → InCompare i a b j s w →
      ∃ w', Walks ((List.range' j (r + 1)).map .cmp) (withWork w s) (withWork w' s)
        ∧ w'.seq = .done ∧ w'.n = w.n ∧ w'.diff = (slowLoop (lengthDiff a b) 0 a b).1 := by
  intro r
  induction r with
  | zero =>
    intro j w hj hw
    refine ⟨{ w with seq := .done }, (hr.withWork w).walk hw.seq ?_, rfl, rfl, ?_⟩
    · simp only [seqMove, withWork_work, hw.seq, seqCmp, hw.n]
      rw [if_neg (by omega)]
      rfl
    · show w.diff = _
      rw [hw.diff, show j = min a.length b.length by omega, slowLoop_take_min]
  | succ r ih =>
    intro j w hj hw
    have hm : seqMove i (withWork w s) = withWork { w with
        diff := accumulate w.diff (a.getD j 0) (b.getD j 0)
        i := BitVec.ofNat 64 (j + 1)
        seq := .cmp (j + 1) } s := by
      simp only [seqMove, withWork_work, hw.seq, seqCmp, hw.n]
      rw [if_pos (by omega), hw.first, show storedOf (withWork w s) = b from hw.second]
      rfl
    have hfirst : seqCompareA i (withWork { w with
        diff := accumulate w.diff (a.getD j 0) (b.getD j 0)
        i := BitVec.ofNat 64 (j + 1)
        seq := .cmp (j + 1) } s) = a := by
      rw [← hw.first]
      cases i <;> rfl
    obtain ⟨w', h1, h2, h3, h4⟩ := ih (j + 1) (w := { w with
        diff := accumulate w.diff (a.getD j 0) (b.getD j 0)
        i := BitVec.ofNat 64 (j + 1)
        seq := .cmp (j + 1) }) (by omega)
      ⟨rfl, hw.n, by
        show accumulate w.diff _ _ = _
        rw [hw.diff, slowLoop_take_succ a b _ _ j (by omega) (by omega)], hfirst, hw.second⟩
    refine ⟨w', ?_, h2, h3, h4⟩
    rw [List.range'_succ, List.map_cons]
    exact ((hr.withWork w).walk hw.seq hm).trans h1

/-- A whole comparison from its start (rules R160, R162). -/
theorem walks_startCompare {i : Instr} {s : State} (hr : Running i s) {a b : Bytes} {w : Work}
    (hlen : min a.length b.length < 2 ^ 64) (hseq : w.seq = .cmp 0)
    (hn : w.n = BitVec.ofNat 64 (min a.length b.length)) (hd : w.diff = lengthDiff a b)
    (hfirst : seqCompareA i (withWork w s) = a) (hsecond : storedOf s = b) :
    ∃ w', Walks (walkCompare (min a.length b.length)) (withWork w s) (withWork w' s)
      ∧ w'.seq = .done ∧ w'.n.toNat = (slowEquals a b).2
      ∧ (w'.diff == 0) = (slowEquals a b).1 := by
  have hn' : w.n.toNat = min a.length b.length := by
    rw [hn, BitVec.toNat_ofNat, Nat.mod_eq_of_lt hlen]
  obtain ⟨w', h1, h2, h3, h4⟩ := walks_compare hr (min a.length b.length) 0 (by omega)
    ⟨hseq, hn', by simp [hd, slowLoop], hfirst, hsecond⟩
  refine ⟨w', ?_, h2, ?_, ?_⟩
  · rwa [← List.range_eq_range'] at h1
  · rw [h3, hn']
    simp [slowEquals, slowLoop_count]
  · rw [h4]
    rfl

/-! ### Draws, the check and the end -/

/-- `S_CHECK` is where every walk begins (rule R38). -/
theorem walks_check {i : Instr} {s : State} (hr : Running i s) {t : State}
    (ht : seqCheck i (seqStart s) = t) : Walks [.check] (seqStart s) t :=
  (hr.withWork { s.work with seq := .check }).walk (p := .check) rfl ht

/-- `S_DONE` is where every walk without error ends (rule R38). -/
theorem walks_done {i : Instr} {s : State} (hr : Running i s) {w : Work} (hw : w.seq = .done)
    {t : State} (ht : seqDone i (withWork w s) = t) : Walks [.done] (withWork w s) t :=
  (hr.withWork w).walk hw (by simp only [seqMove, withWork_work, hw]; exact ht)

theorem answer_withWork (w : Work) (j : Nat) (s : State) :
    (withWork w (afterDraws j s)).answer 0 = s.answer j := answer_afterDraws j 0 s

/-- The draws from number `j` on, all answered with symbols, and the first iteration begun
(rule R130). -/
theorem walks_salt {s : State} (hr : Running .hash s) {v : Nat → Fin 62} :
    ∀ (r j : Nat) {w : Work}, j + (r + 1) = Config.saltLen → w.seq = .salt j →
      (∀ q, q < r + 1 → s.answer (j + q) = .symbol (v (j + q))) →
      Walks ((List.range' j (r + 1)).map .salt) (withWork w (afterDraws j s))
        (withWork
          (iterationWork 1
            (secretOf s ++ (w.salt ++ (List.range' j (r + 1)).map fun q => alpha (v q)))
            { w with salt := w.salt ++ (List.range' j (r + 1)).map fun q => alpha (v q) })
          (afterDraws Config.saltLen s)) := by
  intro r
  induction r with
  | zero =>
    intro j w hj hw hv
    refine ((hr.afterDraws j).withWork w).walk hw ?_
    have h0 : (withWork w (afterDraws j s)).answer 0 = .symbol (v j) :=
      (answer_withWork w j s).trans (hv 0 (by omega))
    have h1 : afterDraws 1 (withWork w (afterDraws j s))
        = withWork w (afterDraws Config.saltLen s) := by
      rw [← hj, ← afterDraws_afterDraws 1 j]
      rfl
    simp only [seqMove, withWork_work, hw, seqSalt, drawSymbol_eq, h0]
    rw [if_neg (by omega), h1]
    rfl
  | succ r ih =>
    intro j w hj hw hv
    have h0 : (withWork w (afterDraws j s)).answer 0 = .symbol (v j) :=
      (answer_withWork w j s).trans (hv 0 (by omega))
    have hm : seqMove .hash (withWork w (afterDraws j s))
        = withWork { w with salt := w.salt ++ [alpha (v j)], seq := .salt (j + 1) }
            (afterDraws (j + 1) s) := by
      simp only [seqMove, withWork_work, hw, seqSalt, drawSymbol_eq, h0]
      rw [if_pos (by omega), ← afterDraws_afterDraws 1 j]
      rfl
    have h1 := ih (j + 1) (w := { w with salt := w.salt ++ [alpha (v j)], seq := .salt (j + 1) })
      (by omega) rfl fun q hq => by
        rw [show j + 1 + q = j + (q + 1) by omega]
        exact hv (q + 1) (by omega)
    have h2 := (((hr.afterDraws j).withWork w).walk hw hm).trans h1
    simp only [List.append_assoc, List.singleton_append] at h2
    rw [List.range'_succ (n := r + 1), List.map_cons, List.map_cons]
    exact h2

/-- The draws from number `j` on, up to the one that fails (rules R130, R136). -/
theorem walks_salt_fails {s : State} (hr : Running .hash s) {m : Nat} (hm : s.drawsFailAt m) :
    ∀ (r j : Nat) {w : Work}, j + r = m → w.seq = .salt j →
      Walks ((List.range' j (r + 1)).map .salt) (withWork w (afterDraws j s))
        (hashError .entropyFailure (afterDraws (m + 1) s)) := by
  have hlt : m < Config.saltLen := hm.1
  intro r
  induction r with
  | zero =>
    intro j w hj hw
    refine ((hr.afterDraws j).withWork w).walk hw ?_
    have h0 : (withWork w (afterDraws j s)).answer 0 = .fail := by
      rw [answer_withWork, show j = m by omega]
      exact hm.2.1
    simp only [seqMove, withWork_work, hw, seqSalt, drawSymbol_eq, h0]
    rw [← hj, Nat.add_zero, ← afterDraws_afterDraws 1 j]
    rfl
  | succ r ih =>
    intro j w hj hw
    obtain ⟨x, hx⟩ : ∃ x, s.answer j = .symbol x := by
      cases h : s.answer j with
      | fail => exact absurd h (hm.2.2 j (by omega))
      | symbol x => exact ⟨x, rfl⟩
    have hmv : seqMove .hash (withWork w (afterDraws j s))
        = withWork { w with salt := w.salt ++ [alpha x], seq := .salt (j + 1) }
            (afterDraws (j + 1) s) := by
      simp only [seqMove, withWork_work, hw, seqSalt, drawSymbol_eq, answer_withWork, hx]
      rw [if_pos (by omega), ← afterDraws_afterDraws 1 j]
      rfl
    have h1 := ih (j + 1) (w := { w with salt := w.salt ++ [alpha x], seq := .salt (j + 1) })
      (by omega) rfl
    rw [List.range'_succ, List.map_cons]
    exact (((hr.afterDraws j).withWork w).walk hw hmv).trans h1

/-! ### Counting positions -/

theorem countP_walkBlocks (p : Pos → Bool) (k c : Nat)
    (h : ∀ blk, ((List.range 80).map fun t => Pos.iter k blk t).countP p = c) (n : Nat) :
    (walkBlocks k n).countP p = c * n := by
  induction n with
  | zero => simp [walkBlocks]
  | succ n ih => rw [walkBlocks_succ, List.countP_append, ih, h, Nat.mul_succ]

/-- A count over the first iterations, from the counts of one block and of one `S_HEX(k)`. -/
theorem countP_walkIterations (p : Pos → Bool) (c d len : Nat)
    (h : ∀ k blk, ((List.range 80).map fun t => Pos.iter k blk t).countP p = c)
    (hd : ∀ k, List.countP p [.hex k] = d) :
    ∀ j, (walkIterations len (j + 1)).countP p = c * (blockCount len + 2 * j) + d * (j + 1)
  | 0 => by
    rw [walkIterations_succ]
    simp only [List.countP_append, countP_walkBlocks p _ c (h _), hd, walkIterations]
    simp
  | j + 1 => by
    rw [walkIterations_succ]
    simp only [List.countP_append, countP_walkBlocks p _ c (h _), hd,
      countP_walkIterations p c d len h hd j]
    rw [if_neg (by omega), show blockCount Config.hexLen = 2 from rfl]
    ring

/-- A count over a whole stretch (rule R140). -/
theorem countP_walkStretch (p : Pos → Bool) (c d len : Nat)
    (h : ∀ k blk, ((List.range 80).map fun t => Pos.iter k blk t).countP p = c)
    (hd : ∀ k, List.countP p [.hex k] = d) :
    (walkStretch len).countP p = c * (blockCount len + 38) + d * 20 :=
  countP_walkIterations p c d len h hd 19

end Sys2Proof.Machine
end

