-- ==== Sys2Proof/Laws/Step.lean ====
section
/-!
SUPPORT. Status words, requests made, buffers by name, and the step: what each can do, for the
provers to cite instead of unfolding.
-/

namespace Sys2Proof.Machine

/-! ### Status words -/

theorem doneBit_okStatus (b : Bool) : doneBit (okStatus b) = true := by cases b <;> rfl

theorem matchBit_okStatus (b : Bool) : matchBit (okStatus b) = b := by cases b <;> rfl

theorem errField_okStatus (b : Bool) : errField (okStatus b) = 0 := by cases b <;> rfl

theorem doneBit_errorStatus (e : ErrorCode) : doneBit (errorStatus e) = true := by cases e <;> rfl

theorem matchBit_errorStatus (e : ErrorCode) : matchBit (errorStatus e) = false := by
  cases e <;> rfl

theorem errField_errorStatus (e : ErrorCode) : errField (errorStatus e) = e.code := by
  cases e <;> rfl

theorem okStatus_reachable (b : Bool) : okStatus b ∈ reachableStatus := by cases b <;> decide

theorem errorStatus_reachable (e : ErrorCode) : errorStatus e ∈ reachableStatus := by
  cases e <;> decide

/-! ### Requests made -/

@[simp] theorem afterDraws_status (n : Nat) (s : State) : (afterDraws n s).status = s.status := rfl
@[simp] theorem afterDraws_slen (n : Nat) (s : State) : (afterDraws n s).slen = s.slen := rfl
@[simp] theorem afterDraws_dlen (n : Nat) (s : State) : (afterDraws n s).dlen = s.dlen := rfl
@[simp] theorem afterDraws_cmpcnt (n : Nat) (s : State) : (afterDraws n s).cmpcnt = s.cmpcnt := rfl
@[simp] theorem afterDraws_sec (n : Nat) (s : State) : (afterDraws n s).sec = s.sec := rfl
@[simp] theorem afterDraws_dig (n : Nat) (s : State) : (afterDraws n s).dig = s.dig := rfl
@[simp] theorem afterDraws_phase (n : Nat) (s : State) : (afterDraws n s).phase = s.phase := rfl
@[simp] theorem afterDraws_secMax (n : Nat) (s : State) : (afterDraws n s).secMax = s.secMax := rfl
@[simp] theorem afterDraws_digMax (n : Nat) (s : State) : (afterDraws n s).digMax = s.digMax := rfl
@[simp] theorem afterDraws_stream (n : Nat) (s : State) : (afterDraws n s).stream = s.stream := rfl
@[simp] theorem afterDraws_inputs (n : Nat) (s : State) : (afterDraws n s).inputs = s.inputs := rfl
@[simp] theorem afterDraws_replies (n : Nat) (s : State) :
    (afterDraws n s).replies = s.replies := rfl
@[simp] theorem afterDraws_entropy (n : Nat) (s : State) :
    (afterDraws n s).entropy = s.entropy.drop n := rfl
@[simp] theorem afterDraws_draws (n : Nat) (s : State) : (afterDraws n s).draws = s.draws + n := rfl

/-! ### Buffers by name -/

/-- A canonical state has both buffers canonical. -/
theorem wf_buffer {s : State} (h : s.Legal) (space : Space) : (s.buffer space).wf = true := by
  cases space
  · exact h.secCanonical
  · exact h.digCanonical

theorem buffer_setBuffer_same (s : State) (space : Space) (m : Memory) :
    (s.setBuffer space m).buffer space = m := by cases space <;> rfl

theorem buffer_setBuffer_other (s : State) {space other : Space} (h : other ≠ space) (m : Memory) :
    (s.setBuffer space m).buffer other = s.buffer other := by
  cases space <;> cases other <;> first | rfl | exact absurd rfl h

theorem capacity_setBuffer (s : State) (space other : Space) (m : Memory) :
    (s.setBuffer space m).capacity other = s.capacity other := by
  cases space <;> cases other <;> rfl

/-- Every offset of a stored digest is below a capacity that rule R5 allows. -/
theorem covers_of_okForDig {c : Capacity} (h : c.okForDig) {i : Nat} (hi : i < 149) :
    c.covers i = true := by
  cases c with
  | unbounded => rfl
  | bounded n =>
    have : 149 ≤ n := h
    simp only [Capacity.covers, decide_eq_true_eq]
    omega

/-- What HASH stores keeps `DIG` canonical and within its capacity. -/
theorem legal_stored {s : State} (h : s.Legal) {d : Bytes} (hd : d.length = 149) :
    (s.dig.writeBytes 0 d).wf = true ∧ (s.dig.writeBytes 0 d).within s.digMax = true := by
  refine ⟨wf_writeBytes _ _ h.digCanonical, within_writeBytes _ _ _ (fun i hi => ?_) h.digWithin⟩
  rw [Nat.zero_add]
  exact covers_of_okForDig h.digCapacity (hd ▸ hi)

/-! ### The step -/

theorem step_idle {s : State} (h : s.phase = .idle) : step s = .next (outsideMove s) := by
  simp only [step, h]

theorem step_run {s : State} (h : s.phase = .run) (hr : resetPending s = false) :
    step s = completeLatched (passWait s) := by
  simp only [step, h, hr]
  rfl

theorem step_reset {s : State} (hr : resetPending s = true) : step s = .next (outsideMove s) := by
  unfold step
  split
  · rfl
  · rw [if_pos hr]

/-- What a salt generation leaves, however it ends: some number of requests made, at most all. -/
theorem saltLoop_snd (n : Nat) :
    ∀ (salt : Bytes) (s : State), ∃ k, k ≤ n ∧ (saltLoop n salt s).2 = afterDraws k s := by
  induction n with
  | zero => intro salt s; exact ⟨0, Nat.le_refl 0, rfl⟩
  | succ n ih =>
    intro salt s
    rw [saltLoop, drawSymbol_eq]
    cases s.answer 0 with
    | fail => exact ⟨1, by omega, rfl⟩
    | symbol v =>
      obtain ⟨k, hk, h⟩ := ih (salt ++ [alpha v]) (afterDraws 1 s)
      refine ⟨1 + k, by omega, ?_⟩
      rw [← afterDraws_afterDraws]
      exact h

/-- A reset loses at most 21 answers, and only those of a running HASH (rule R241). -/
theorem abandonDraws_cases (s : State) :
    ∃ n, n ≤ 21 ∧ abandonDraws s = afterDraws n s
      ∧ (s.phase = .idle ∨ decode s.cmdlatch ≠ .command .hash → n = 0) := by
  unfold abandonDraws
  split
  · next h1 h2 =>
    have himp : s.phase = .idle ∨ decode s.cmdlatch ≠ .command .hash → False := by
      rintro (h | h)
      · rw [h1] at h
        cases h
      · exact h h2
    split
    · exact ⟨0, by omega, rfl, fun _ => rfl⟩
    · obtain ⟨k, hk, h⟩ := saltLoop_snd (Config.drawsLost s.stream s.fresh).val [] s
      have := (Config.drawsLost s.stream s.fresh).isLt
      exact ⟨k, by omega, h, fun h => (himp h).elim⟩
  · exact ⟨0, by omega, rfl, fun _ => rfl⟩

/-- While a command completes, nothing outside moves but a wait. -/
theorem passWait_cases (s : State) :
    passWait s = s ∨ ∃ rest, s.inputs = .wait :: rest ∧ passWait s = { s with inputs := rest } := by
  unfold passWait
  split
  · next rest h => exact .inr ⟨rest, h, rfl⟩
  · exact .inl rfl

theorem passWait_cmdlatch (s : State) : (passWait s).cmdlatch = s.cmdlatch := by
  rcases passWait_cases s with h | ⟨_, _, h⟩ <;> rw [h]

theorem completeLatched_cases (s : State) :
    (∃ i, decode s.cmdlatch = .command i ∧ completeLatched s = .next (completion i s))
    ∨ ((∃ why, decode s.cmdlatch = .illegal why)
        ∧ completeLatched s = .next (completeIllegal s)) := by
  unfold completeLatched
  cases h : decode s.cmdlatch with
  | command i => exact .inl ⟨i, rfl, exec_eq i s⟩
  | illegal why => exact .inr ⟨⟨why, rfl⟩, rfl⟩

/-! ### Every completion -/

/-- Every completion ends in phase IDLE with `DONE` set, and the host's script and its answers are as
they were. -/
theorem completion_frame (i : Instr) (s : State) :
    (completion i s).phase = .idle ∧ doneBit (completion i s).status = true
      ∧ (completion i s).inputs = s.inputs ∧ (completion i s).replies = s.replies
      ∧ (completion i s).secMax = s.secMax ∧ (completion i s).digMax = s.digMax
      ∧ (completion i s).stream = s.stream := by
  cases i with
  | hash =>
    rcases hashCompletion_cases s with ⟨_, h⟩ | ⟨m, _, _, h⟩ | ⟨v, _, _, h⟩ <;>
      simp [completion, h, doneBit_okStatus, doneBit_errorStatus]
  | verify =>
    cases h : eitherTooLong s <;>
      simp [completion, verifyCompletion_compares, verifyCompletion_long, h, doneBit_okStatus,
        doneBit_errorStatus]
  | cmpeq =>
    cases h : eitherTooLong s <;>
      simp [completion, cmpeqCompletion_compares, cmpeqCompletion_long, h, doneBit_okStatus,
        doneBit_errorStatus]

theorem drawSymbol_inputs (s : State) (l : List Input) :
    drawSymbol { s with inputs := l }
      = ((drawSymbol s).1, { (drawSymbol s).2 with inputs := l }) := by
  unfold drawSymbol
  cases h : s.entropy <;> rfl

theorem saltLoop_inputs (l : List Input) :
    ∀ (n : Nat) (salt : Bytes) (s : State),
      saltLoop n salt { s with inputs := l }
        = ((saltLoop n salt s).1, { (saltLoop n salt s).2 with inputs := l })
  | 0, _, _ => rfl
  | n + 1, salt, s => by
    unfold saltLoop
    rw [drawSymbol_inputs]
    rcases h : drawSymbol s with ⟨d, s'⟩
    cases d with
    | fail => rfl
    | symbol v => exact saltLoop_inputs l n _ _

/-- What a command does has nothing to do with what the host will do next (rule R186). -/
theorem completion_inputs (i : Instr) (s : State) (l : List Input) :
    completion i { s with inputs := l } = { completion i s with inputs := l } := by
  have h1 : secTooLong { s with inputs := l } = secTooLong s := rfl
  have h2 : eitherTooLong { s with inputs := l } = eitherTooLong s := rfl
  cases i with
  | hash =>
    simp only [completion, hashCompletion, h1, saltGen, saltLoop_inputs]
    split
    · rfl
    · rcases saltLoop Config.saltLen [] s with ⟨_ | salt, s'⟩ <;> rfl
  | verify =>
    simp only [completion, verifyCompletion, h2]
    split <;> rfl
  | cmpeq =>
    simp only [completion, cmpeqCompletion, h2]
    split <;> rfl

end Sys2Proof.Machine
end

