-- ==== Sys2Proof/Tests/Slice0.lean ====
section
/-!
SUPPORT. Tests against the spec's own examples and vectors (spec/95_test_vectors.md), and for every
statement with hypotheses a concrete state and operands that meet them.
-/

namespace Sys2Proof.Tests

open Sys2Proof.Machine

/-! ### Small states -/

/-- The parameters of section 2.7 of spec/95: `SEC_MAX = 64`, `DIG_MAX = 256`; the reset state. -/
def base : State := { State.reset with secMax := .bounded 64, digMax := .bounded 256 }

/-- `base` with the two strings loaded, as `LDS` and `LDD` load them (rule R80). -/
def loaded (a b : Bytes) : State :=
  { memWrite .dig 0 b (memWrite .sec 0 a base) with
    slen := BitVec.ofNat 64 a.length
    dlen := BitVec.ofNat 64 b.length }

/-- `base` with what the outside world does next. -/
def withInputs (l : List Input) : State := { base with inputs := l }

/-- `base` with a word latched and running. -/
def running (w : Word) (l : List Input) : State :=
  { base with phase := .run, cmdlatch := w, inputs := l }

/-- `base` with answers of the entropy device listed. -/
def withDraws (l : List Draw) : State := { base with entropy := l }

/-- Something of the next state, if there is one. -/
def after {α : Type} (f : State → α) : Host.Outcome State Fault Refusal → Option α
  | .next t => some (f t)
  | .fault _ => none
  | .refused _ => none

/-- Twenty-one symbols `0, 1, ..., 20`, the draws of vector V22. -/
def countingDraws : List Draw :=
  [.symbol 0, .symbol 1, .symbol 2, .symbol 3, .symbol 4, .symbol 5, .symbol 6, .symbol 7, .symbol 8,
   .symbol 9, .symbol 10, .symbol 11, .symbol 12, .symbol 13, .symbol 14, .symbol 15, .symbol 16,
   .symbol 17, .symbol 18, .symbol 19, .symbol 20]

/-! ### Well-formedness and decoding -/

/-- `RSV != 0` is refused (rule R72, vector V82). -/
theorem test_wf_refuses_reserved : wellFormedWord 0x0000000000000101 = false := by decide

/-- `OP = 0x00` is refused (rule R72, vector V80). -/
theorem test_wf_refuses_op_zero : wellFormedWord 0x0000000000000000 = false := by decide

/-- `OP = 0x04` is refused (rule R72, vector V81). -/
theorem test_wf_refuses_op_four : wellFormedWord 0x0000000000000004 = false := by decide

/-- The words of rule R71, bit by bit: `RSV`, 56 zeros, then the eight bits of `OP`. -/
theorem test_decode_hash : decode
    0b0000000000000000000000000000000000000000000000000000000000000001#64 = .command .hash := by
  decide

theorem test_decode_verify : decode
    0b0000000000000000000000000000000000000000000000000000000000000010#64 = .command .verify := by
  decide

theorem test_decode_cmpeq : decode
    0b0000000000000000000000000000000000000000000000000000000000000011#64 = .command .cmpeq := by
  decide

/-- Both reasons at once: `RSV` is looked at first (rule R70). -/
theorem test_decode_reserved_first : decode 0x0000000000000100 = .illegal .reservedBits := by decide

/-- The three rows of spec/opcode_table.json, and a word that is no row. -/
theorem test_decode_table :
    decodeTableWord 64 1 = some .hash ∧ decodeTableWord 64 2 = some .verify
    ∧ decodeTableWord 64 3 = some .cmpeq ∧ decodeTableWord 64 4 = none := by decide

/-! ### The hash core -/

/-- Vectors V1 to V5. -/
theorem test_words :
    (0x0123456789abcdef : Word) + 0xfedcba9876543210 = 0xffffffffffffffff
    ∧ (0xffffffffffffffff : Word) + 2 = 1
    ∧ rotr 0x0123456789abcdef 1 = 0x8091a2b3c4d5e6f7
    ∧ rotr 0x0123456789abcdef 8 = 0xef0123456789abcd
    ∧ rotr 0x0123456789abcdef 61 = 0x091a2b3c4d5e6f78
    ∧ shr 0x0123456789abcdef 7 = 0x0002468acf13579b := by decide

/-- Vectors V6 to V8. -/
theorem test_functions :
    ch 0x0123456789abcdef 0xfedcba9876543210 0x0f1e2d3c4b5a6978 = 0x0e1c281842502010
    ∧ maj 0x0123456789abcdef 0xfedcba9876543210 0x0f1e2d3c4b5a6978 = 0x0f1e2d3c4b5a6978
    ∧ bsig0 0x0123456789abcdef = 0xb7c57a100c7ec1ab
    ∧ bsig1 0x0123456789abcdef = 0x7703112333475567
    ∧ ssig0 0x0123456789abcdef = 0x6f92c77c6c4f1aa1
    ∧ ssig1 0x0123456789abcdef = 0x70a3460dbbd4317a := by decide

set_option maxRecDepth 10000 in
/-- Vectors V10 and V11: the block of `"abc"` and its schedule. -/
theorem test_schedule :
    (blockWords (block (pad [0x61, 0x62, 0x63]) 0)).getD 15 0 = 0x0000000000000018
    ∧ (schedule (blockWords (block (pad [0x61, 0x62, 0x63]) 0))).getD 17 0 = 0x00030000000000c0
    ∧ (schedule (blockWords (block (pad [0x61, 0x62, 0x63]) 0))).getD 19 0 = 0x00000c0060000603
    ∧ (schedule (blockWords (block (pad [0x61, 0x62, 0x63]) 0))).getD 79 0 = 0x92aeeed1a7bcf7d2 := by
  decide +kernel

set_option maxRecDepth 100000 in
/-- Vector V15b: the smallest message of two blocks, 112 bytes `"a"`. -/
theorem test_hash_two_blocks :
    hashBlocks (List.replicate 112 0x61) =
      ⟨0xc01d080efd492776, 0xa1c43bd23dd99d0a, 0x2e626d481e16782e, 0x75d54c2503b5dc32,
       0xbd05f0f1ba33e568, 0xb88fd2d970929b71, 0x9ecbb152f58f130a, 0x407c8830604b70ca⟩ := by
  decide +kernel

/-- The block counts of rule R120. -/
theorem test_block_count :
    [0, 111, 112, 128, 239, 240].map blockCount = [1, 1, 2, 2, 2, 3] := by decide

/-- Vectors V20 and V21. -/
theorem test_symbols :
    [alpha 0, alpha 9, alpha 10, alpha 35, alpha 36, alpha 61] = [0x30, 0x39, 0x61, 0x7A, 0x41, 0x5A]
    ∧ hexEnc [0x00, 0x0f, 0xa5, 0xff] = [0x30, 0x30, 0x30, 0x66, 0x61, 0x35, 0x66, 0x66] := by
  decide

/-- Vector V22: the draws `0, 1, ..., 20` give the salt `"0123456789abcdefghijk"`. -/
theorem test_salt : (saltGen (withDraws countingDraws)).1 = some
    [0x30, 0x31, 0x32, 0x33, 0x34, 0x35, 0x36, 0x37, 0x38, 0x39, 0x61, 0x62, 0x63, 0x64, 0x65, 0x66,
     0x67, 0x68, 0x69, 0x6a, 0x6b] := by decide

/-! ### The commands -/

/-- Vector V24: the sixth request fails; the failed HASH has drawn six answers and kept `DIG`. -/
theorem test_hash_entropy_failure :
    after (fun t => (t.status, t.dlen, t.draws, t.dig))
      (exec .hash { loaded [0x70, 0x77] [0x73] with
        entropy := [.symbol 61, .symbol 35, .symbol 36, .symbol 9, .symbol 10, .fail] })
      = some (0x11, 0, 6, [(0, 0x73)]) := by decide

/-- Vectors V83 and V87: `SLEN = 65` is a length error, whatever the entropy device would say. -/
theorem test_hash_too_long :
    after (fun t => (t.status, t.dlen, t.slen, t.entropy))
      (exec .hash { base with slen := 65, dlen := 7, entropy := [.fail] })
      = some (0x31, 0, 0, [.fail]) := by decide

/-- Vector V85. -/
theorem test_verify_too_long :
    after (fun t => (t.status, t.slen, t.sec, t.dlen))
      (exec .verify { loaded [0x61, 0x62, 0x63] [] with dlen := 257 })
      = some (0x31, 0, [], 257) := by decide

/-- Vectors V63, V64, V65 and V68: the same count wherever the difference is. -/
theorem test_cmpeq_contents :
    after (fun t => (t.status, t.cmpcnt)) (exec .cmpeq (loaded [0x61, 0x62, 0x63] [0x61, 0x62, 0x63]))
      = some (0x03, 3)
    ∧ after (fun t => (t.status, t.cmpcnt))
        (exec .cmpeq (loaded [0x61, 0x62, 0x63] [0x78, 0x62, 0x63])) = some (0x01, 3)
    ∧ after (fun t => (t.status, t.cmpcnt))
        (exec .cmpeq (loaded [0x61, 0x62, 0x63] [0x61, 0x62, 0x64])) = some (0x01, 3)
    ∧ after (fun t => (t.status, t.cmpcnt))
        (exec .cmpeq (loaded [0x01, 0x02, 0x04] [0x00, 0x00, 0x00])) = some (0x01, 3) := by decide

/-- Vectors V60, V62, V66, V70 and V84. -/
theorem test_cmpeq_lengths :
    after (fun t => (t.status, t.cmpcnt)) (exec .cmpeq (loaded [] [])) = some (0x03, 0)
    ∧ after (fun t => (t.status, t.cmpcnt)) (exec .cmpeq (loaded [] [0x61])) = some (0x01, 0)
    ∧ after (fun t => (t.status, t.cmpcnt))
        (exec .cmpeq (loaded [0x61, 0x62, 0x63] [0x61, 0x62, 0x63, 0x64])) = some (0x01, 3)
    ∧ after (fun t => (t.status, t.cmpcnt))
        (exec .cmpeq { base with secMax := .bounded 256, slen := 256 }) = some (0x01, 0)
    ∧ after (fun t => (t.status, t.cmpcnt, t.slen))
        (exec .cmpeq { base with slen := 3, dlen := 257 }) = some (0x31, 0, 3) := by decide +kernel

/-- Vector V82: no hash is computed, nothing is drawn. -/
theorem test_illegal_word :
    after (fun t => (t.status, t.cmpcnt, t.phase, t.draws)) (step (running 0x101 []))
      = some (0x21, 0, .idle, 0) := by decide

/-! ### The port, the step and reset -/

/-- Vector V88: the ignored writes, and the reads of registers. -/
theorem test_ignored_writes :
    after (fun t => (t.status, readReg 5 t)) (step (withInputs [.port (.wrr 1 0xFF)]))
      = some (0, 21)
    ∧ after (fun t => readReg 5 t) (step (withInputs [.port (.wrr 5 5)])) = some 21
    ∧ after (fun t => t.sec) (step (withInputs [.port (.wrb .sec 64 0x41)])) = some []
    ∧ after (fun t => t.sec) (step (withInputs [.port (.wrb .sec 63 0x41)]))
      = some [(63, 0x41)] := by decide

theorem test_reads :
    after (fun t => t.replies) (step (withInputs [.port (.rdr 7)])) = some [.word 64]
    ∧ after (fun t => t.replies) (step (withInputs [.port (.rdr 8)])) = some [.word 256]
    ∧ after (fun t => t.replies) (step (withInputs [.port (.rdb .sec 64)])) = some [.byte 0]
    ∧ after (fun t => t.replies) (step (withInputs [.port (.rdr 9)])) = some [.word 0] := by decide

/-- Rule R241: a reset in phase RUN abandons the command. -/
theorem test_reset_abandons :
    after (fun t => (t.status, t.phase, t.dlen))
      (step { running 3 [.reset] with status := 0x03, dlen := 5 }) = some (0, .idle, 0) := by decide

/-- Rule R186: the operation is held, and the command completes. -/
theorem test_held :
    after (fun t => (t.status, t.inputs, t.replies)) (step (running 3 [.port (.rdr 1)]))
      = some (0x03, [.port (.rdr 1)], []) := by decide

/-- The word placed by `withFetchWord` is what the next step runs, a reset to come or not. -/
theorem test_fetch :
    after (fun t => (t.status, t.cmpcnt)) (step ((withInputs [.reset]).withFetchWord 64 3))
      = some (0x03, 0) := by decide

set_option maxRecDepth 100000 in
/-- Vectors V93 and V94. -/
theorem test_counts :
    countCompressions (walk .hash 91 0) = 40 ∧ countComparisons (walk .verify 13 149) = 149 := by
  decide +kernel

/-! ### Witnesses: legal states -/

theorem legal_base : base.Legal :=
  ⟨by decide, by decide, by decide, by decide, by simp [base, Capacity.okForSec, Config.saltLen],
    by simp [base, Capacity.okForDig, Config.storedLen, Config.saltLen, Config.hexLen], by decide,
    fun _ => rfl⟩

/-- Lengths, a latch, the world around: legality does not depend on them. -/
theorem legal_withDraws (l : List Draw) : (withDraws l).Legal :=
  ⟨legal_base.1, legal_base.2, legal_base.3, legal_base.4, legal_base.5, legal_base.6, legal_base.7,
    legal_base.8⟩

theorem legal_withInputs (l : List Input) : (withInputs l).Legal :=
  ⟨legal_base.1, legal_base.2, legal_base.3, legal_base.4, legal_base.5, legal_base.6, legal_base.7,
    legal_base.8⟩

/-- The symbols of vector V22. -/
def counting (j : Nat) : Fin 62 := Fin.ofNat 62 j

theorem draws_counting : (withDraws countingDraws).drawsSalt counting := by
  unfold State.drawsSalt
  decide

theorem fails_first : (withDraws [.fail]).drawsFailAt 0 :=
  ⟨by decide, by decide, fun j hj => absurd hj (Nat.not_lt_zero j)⟩

theorem fails_last : (withDraws (countingDraws.take 20 ++ [.fail])).drawsFailAt 20 := by
  unfold State.drawsFailAt
  decide

/-! ### Witnesses: the hash core and the comparator -/

theorem witness_WordOperations : (0 < 1 ∧ 1 < 64) ∧ (0 < 63 ∧ 63 < 64) := by decide

theorem witness_ScheduleRecurrence :
    (List.replicate 16 (0 : Word)).length = 16 ∧ 15 < 16 ∧ (16 ≤ 16 ∧ 16 ≤ 79) ∧ 79 ≤ 79 := by decide

theorem witness_CompressionRunsEightyRounds :
    (List.replicate 16 (0 : Word)).length = 16 ∧ 79 < 80 := by decide

theorem witness_HashChainsBlocks : 0 < (pad []).length / 128 ∧ 15 < 16 ∧ 7 < 8 := by
  decide +kernel

theorem witness_HexEncodesNibbles : 0 < ([0xdd] : Bytes).length ∧ (0x64 : Byte) ∈ hexEnc [0xdd] := by
  decide

theorem witness_StretchChainsTwentyHashes : (1 ≤ 1 ∧ 1 < 20) ∧ (1 ≤ 19 ∧ 19 < 20) ∧ 20 ≤ 20 := by
  decide

theorem witness_SlowEqualsDecidesEquality :
    ([0x61] : Bytes).length < 2 ^ 64 ∧ ([] : Bytes).length < 2 ^ 64 := by decide

theorem witness_SlowEqualsCountsMinLength :
    ([0x61] : Bytes).length = ([0x62] : Bytes).length
    ∧ secTooLong (loaded [0x61] [0x61]) = false ∧ digTooLong (loaded [0x61] [0x61]) = false := by
  decide

theorem witness_SymbolTables :
    (9 : Fin 62).val ≤ 9 ∧ (10 ≤ (10 : Fin 62).val ∧ (35 : Fin 62).val ≤ 35) ∧ 36 ≤ (61 : Fin 62).val
    ∧ (9 : BitVec 4).toNat ≤ 9 ∧ 10 ≤ (15 : BitVec 4).toNat := by decide

/-! ### Witnesses: the commands -/

theorem witness_HashCompletes :
    ∃ s v, State.Legal s ∧ secTooLong s = false ∧ s.drawsSalt v :=
  ⟨withDraws countingDraws, counting, legal_withDraws _, by decide, draws_counting⟩

/-- Both ends of the range of the failing draw, and a secret one byte too long. -/
theorem witness_HashErrorLeavesNoDigest :
    (∃ s : State, secTooLong s = false ∧ s.drawsFailAt 0)
    ∧ (∃ s : State, secTooLong s = false ∧ s.drawsFailAt 20)
    ∧ ∃ s : State, secTooLong s = true ∧ s.slen = 65 ∧ s.secMax = .bounded 64 :=
  ⟨⟨_, by decide, fails_first⟩, ⟨_, by decide, fails_last⟩,
    { base with slen := 65 }, by decide, rfl, rfl⟩

theorem witness_HashTakesItsDraws :
    secTooLong { base with slen := 65 } = true
    ∧ (secTooLong (withDraws countingDraws) = false ∧ (withDraws countingDraws).drawsSalt counting)
    ∧ (secTooLong (withDraws [.fail]) = false ∧ (withDraws [.fail]).drawsFailAt 0) :=
  ⟨by decide, ⟨by decide, draws_counting⟩, by decide, fails_first⟩

/-- The digest buffer as HASH of the empty secret with the salt of V22 leaves it. -/
@[irreducible] def storedDig : Memory := Memory.writeBytes [] 0 (saltOf counting ++ stretch [] (saltOf counting))

theorem wf_storedDig : storedDig.wf = true := by
  unfold storedDig
  exact wf_writeBytes _ _ rfl

/-- That stored string with its secret. -/
def storedState : State := { base with dig := storedDig, dlen := 149 }

theorem dig_storedState {i : Nat} (h : i < 149) :
    storedState.dig.read i = (saltOf counting ++ stretch [] (saltOf counting)).getD i 0 := by
  have hn : Memory.wf [] = true := rfl
  rw [show storedState.dig = storedDig from rfl]
  unfold storedDig
  rw [read_writeBytes _ _ _ hn, if_pos (by simpa using h)]
  rfl

theorem storedOf_storedState :
    storedOf storedState = saltOf counting ++ stretch [] (saltOf counting) := by
  apply bytes_ext
  · rw [length_storedOf]
    simp [storedState]
  · intro i hi
    rw [length_storedOf] at hi
    have hi' : i < 149 := hi
    rw [getD_storedOf _ hi, dig_storedState hi']

/-- VERIFY finds it to match: rule R137 on the empty secret. -/
theorem verify_storedState :
    ∃ t, exec .verify storedState = .next t ∧ matchBit t.status = true := by
  refine ⟨_, exec_eq _ _, ?_⟩
  have h : eitherTooLong storedState = false := rfl
  have hs : extractSalt (saltOf counting ++ stretch [] (saltOf counting)) = saltOf counting :=
    List.take_left' (length_saltOf _)
  have hr : reconstruct (secretOf storedState) (storedOf storedState) = storedOf storedState := by
    rw [storedOf_storedState, reconstruct, hs]
    rfl
  simp only [completion, verifyCompletion_compares h, hr]
  decide

theorem witness_VerifyCompletes :
    (∃ s : State, secTooLong s = false ∧ digTooLong s = false
      ∧ reconstruct (secretOf s) (storedOf s) = storedOf s)
    ∧ ∃ s : State, secTooLong s = false ∧ digTooLong s = false
      ∧ reconstruct (secretOf s) (storedOf s) ≠ storedOf s := by
  refine ⟨⟨storedState, rfl, rfl, ?_⟩, ⟨base, by decide, by decide, fun h => ?_⟩⟩
  · have hs : extractSalt (saltOf counting ++ stretch [] (saltOf counting)) = saltOf counting :=
      List.take_left' (length_saltOf _)
    rw [storedOf_storedState, reconstruct, hs]
    rfl
  · have := congrArg List.length h
    rw [length_reconstruct, length_storedOf, show base.dlen = 0 from rfl] at this
    simp at this

/-- The three ranges of the length at their ends: 148, 149 and 150. -/
theorem witness_VerifyOutcomeByLength :
    (∃ s : State, secTooLong s = false ∧ digTooLong s = false ∧ s.dlen.toNat < 149)
    ∧ (∃ s : State, secTooLong s = false ∧ digTooLong s = false ∧ s.dlen.toNat = 149)
    ∧ ∃ s : State, secTooLong s = false ∧ digTooLong s = false ∧ 149 < s.dlen.toNat :=
  ⟨⟨{ base with dlen := 148 }, by decide⟩, ⟨{ base with dlen := 149 }, by decide⟩,
    ⟨{ base with dlen := 150 }, by decide⟩⟩

theorem witness_CmpeqCompletes :
    (∃ s : State, secTooLong s = false ∧ digTooLong s = false
      ∧ s.slen = s.dlen ∧ ∀ i, i < s.slen.toNat → s.sec.read i = s.dig.read i)
    ∧ ∃ s : State, secTooLong s = false ∧ digTooLong s = false
      ∧ ¬(s.slen = s.dlen ∧ ∀ i, i < s.slen.toNat → s.sec.read i = s.dig.read i) :=
  ⟨⟨loaded [0x61] [0x61], by decide⟩, ⟨loaded [0x61] [0x62], by decide⟩⟩

/-- The lengths one beyond the capacities, and the capacities themselves. -/
theorem witness_LengthErrorCompletes :
    secTooLong { base with slen := 65 } = true ∧ secTooLong { base with slen := 64 } = false
    ∧ digTooLong { base with dlen := 257 } = true ∧ digTooLong { base with dlen := 256 } = false := by
  decide

theorem witness_IllegalWordCompletes :
    (running 0x101 []).phase = .run ∧ resetPending (running 0x101 []) = false
    ∧ decode (running 0x101 []).cmdlatch = .illegal .reservedBits
    ∧ decode (running 4 []).cmdlatch = .illegal .unassignedOp := by decide

theorem witness_SecretZeroised :
    Instr.hash ≠ .cmpeq ∧ (running 0 [.wait]).phase = .run
    ∧ resetPending (running 0 [.wait]) = false
    ∧ decode (running 0 [.wait]).cmdlatch = .illegal .unassignedOp := by decide

theorem witness_CommandFrame : ∃ s : State, s.Legal := ⟨base, legal_base⟩

/-- The host reloads the secret, here the empty one, and leaves `DIG` as HASH left it. -/
theorem witness_HashThenVerifyMatches :
    ∃ s v, State.Legal s ∧ secTooLong s = false ∧ s.drawsSalt v
      ∧ ∃ t, exec .hash s = .next t
        ∧ ∃ u : State, u.slen = s.slen ∧ (∀ i, i < s.slen.toNat → u.sec.read i = s.sec.read i)
          ∧ u.dlen = t.dlen ∧ (∀ i, i < 149 → u.dig.read i = t.dig.read i)
          ∧ u.secMax = s.secMax ∧ u.digMax = s.digMax := by
  have hf := completion_frame .hash (withDraws countingDraws)
  refine ⟨withDraws countingDraws, counting, legal_withDraws _, by decide, draws_counting,
    completion .hash (withDraws countingDraws), exec_eq _ _, ?_⟩
  generalize completion .hash (withDraws countingDraws) = t at hf
  exact ⟨{ t with slen := (withDraws countingDraws).slen, sec := (withDraws countingDraws).sec },
    rfl, fun _ _ => rfl, rfl, fun _ _ => rfl, hf.2.2.2.2.1, hf.2.2.2.2.2.1⟩

/-- The first and the last byte of the hex part changed, and one byte too few and too many. -/
theorem witness_VerifyRejectsChangedDigest (k : Nat) (hk : k = 21 ∨ k = 148) :
    ∃ s t u, exec .verify s = .next t ∧ matchBit t.status = true
      ∧ u.slen = s.slen ∧ (∀ i, i < s.slen.toNat → u.sec.read i = s.sec.read i)
      ∧ u.secMax = s.secMax ∧ digTooLong u = false
      ∧ u.dlen = s.dlen ∧ (∀ i, i < 21 → u.dig.read i = s.dig.read i)
      ∧ ∃ i, 21 ≤ i ∧ i < 149 ∧ u.dig.read i ≠ s.dig.read i := by
  obtain ⟨t, ht, hm⟩ := verify_storedState
  have hwf : storedState.dig.wf = true := wf_storedDig
  refine ⟨storedState, t,
    { storedState with dig := storedState.dig.write k (storedState.dig.read k + 1) },
    ht, hm, rfl, fun _ _ => rfl, rfl, rfl, rfl, fun i hi => ?_, k, by omega, by omega, ?_⟩
  · exact read_write_other hwf (by omega) _
  · show (storedState.dig.write k _).read k ≠ _
    rw [read_write_same hwf]
    exact fun h => absurd (BitVec.add_right_eq_self.1 h) (by decide)

theorem witness_VerifyRejectsChangedLength (d : Word) (hd : d = 148 ∨ d = 150) :
    ∃ s t u : State, exec .verify s = .next t ∧ matchBit t.status = true
      ∧ u.slen = s.slen ∧ (∀ i, i < s.slen.toNat → u.sec.read i = s.sec.read i)
      ∧ u.secMax = s.secMax ∧ digTooLong u = false ∧ u.dlen ≠ s.dlen := by
  obtain ⟨t, ht, hm⟩ := verify_storedState
  refine ⟨storedState, t, { storedState with dlen := d }, ht, hm, rfl, fun _ _ => rfl, rfl, ?_, ?_⟩
  · rcases hd with rfl | rfl <;> rfl
  · show d ≠ 149
    rcases hd with rfl | rfl <;> decide

/-- Two contexts that differ in a byte beyond the lengths, a status and a latch. -/
theorem witness_OnlyOperandsAreRead :
    ∃ s u : State, s.Legal ∧ u.Legal ∧ SameOperands s u ∧ u.world = s.world ∧ u.sec ≠ s.sec :=
  ⟨base, { base with sec := [(5, 1)], status := 0x03, cmdlatch := 7 }, legal_base,
    ⟨by decide, by decide, by decide, by decide, legal_base.5, legal_base.6, by decide,
      fun _ => rfl⟩,
    ⟨rfl, rfl, fun i hi => absurd hi (Nat.not_lt_zero i), fun i hi => absurd hi (Nat.not_lt_zero i),
      rfl, rfl⟩, rfl, by decide⟩

theorem witness_CountIgnoresContents :
    ∃ s u : State, Instr.verify ≠ .hash ∧ u.slen = s.slen ∧ u.dlen = s.dlen ∧ u.secMax = s.secMax
      ∧ u.digMax = s.digMax ∧ u.sec ≠ s.sec :=
  ⟨loaded [0x61] [0x61], loaded [0x62] [0x61], by decide⟩

/-! ### Witnesses: the port, the step, reset and contexts -/

theorem witness_StepRunsLatchedCommand :
    Instr.hash.wellFormed = true ∧ (running 1 [.wait]).phase = .run
    ∧ resetPending (running 1 [.wait]) = false
    ∧ decode (running 1 [.wait]).cmdlatch = .command .hash := by decide

theorem witness_WriteToCmdIssues :
    (withInputs [.port (.wrr 0 1)]).phase = .idle
    ∧ (withInputs [.port (.wrr 0 1)]).inputs = .port (.wrr 0 1) :: [] := by decide

theorem witness_PortOperationHeld :
    (running 3 [.port (.rdr 1)]).phase = .run
    ∧ (running 3 [.port (.rdr 1)]).inputs = .port (.rdr 1) :: [] := by decide

theorem witness_FirstReadSeesCompletion :
    (withInputs [.port (.wrr 0 3), .port (.rdr 1)]).phase = .idle
    ∧ (withInputs [.port (.wrr 0 3), .port (.rdr 1)]).inputs
      = .port (.wrr 0 3) :: .port (.rdr 1) :: [] := by decide

/-- Every register number the clauses name, the first reserved one, and a capacity of each kind. -/
theorem witness_ReadRegister :
    (∀ n, n < 10 → (withInputs [.port (.rdr n)]).phase = .idle
      ∧ (withInputs [.port (.rdr n)]).inputs = .port (.rdr n) :: [])
    ∧ (withInputs [.port (.rdr 7)]).secMax = .bounded 64
    ∧ ({ withInputs [.port (.rdr 7)] with secMax := .unbounded } : State).secMax = .unbounded :=
  ⟨fun _ _ => ⟨rfl, rfl⟩, rfl, rfl⟩

theorem witness_WriteRegister :
    ∀ n, n < 10 → (withInputs [.port (.wrr n 5)]).phase = .idle
      ∧ (withInputs [.port (.wrr n 5)]).inputs = .port (.wrr n 5) :: [] :=
  fun _ _ => ⟨rfl, rfl⟩

/-- The last offset of each buffer. -/
theorem witness_ByteWriteThenRead :
    (∃ s : State, s.Legal ∧ s.phase = .idle ∧ (s.capacity .sec).covers 63 = true
      ∧ s.inputs = .port (.wrb .sec 63 7) :: .port (.rdb .sec 63) :: [])
    ∧ ∃ s : State, s.Legal ∧ s.phase = .idle ∧ (s.capacity .dig).covers 255 = true
      ∧ s.inputs = .port (.wrb .dig 255 7) :: .port (.rdb .dig 255) :: [] :=
  ⟨⟨_, legal_withInputs _, by decide, by decide, rfl⟩,
    ⟨_, legal_withInputs _, by decide, by decide, rfl⟩⟩

/-- The first register number and the first offsets that are out of range. -/
theorem witness_OutOfRangeIgnored :
    (withInputs [.port (.rdr 9)]).phase = .idle ∧ 9 ≤ 9
    ∧ (withInputs [.port (.rdb .sec 64)]).inputs = .port (.rdb .sec 64) :: []
    ∧ ((withInputs [.port (.rdb .sec 64)]).capacity .sec).covers 64 = false
    ∧ ((withInputs [.port (.wrb .dig 256 1)]).capacity .dig).covers 256 = false := by decide

theorem witness_IdleContextWaits :
    base.phase = .idle ∧ base.inputs = [] ∧ (withInputs [.wait]).phase = .idle
    ∧ (withInputs [.wait]).inputs = .wait :: [] := by decide

/-- A completion and a reset, each of which changes `STATUS`. -/
theorem witness_OnlyCompletionsWriteStatus :
    (∃ s t : State, step s = .next t ∧ t.status ≠ s.status ∧ s.phase = .run)
    ∧ ∃ s t : State, step s = .next t ∧ t.status ≠ s.status ∧ resetPending s = true :=
  ⟨⟨running 0 [], _, rfl, by decide, rfl⟩,
    ⟨{ withInputs [.reset] with status := 0x03 }, _, rfl, by decide, rfl⟩⟩

/-- In either phase, a HASH running or not. -/
theorem witness_ResetAbandonsCommand :
    (withInputs [.reset]).inputs = .reset :: [] ∧ (withInputs [.reset]).phase = .idle
    ∧ (running 1 [.reset]).inputs = .reset :: [] ∧ (running 1 [.reset]).phase = .run
    ∧ decode (running 1 [.reset]).cmdlatch = .command .hash
    ∧ decode (running 2 [.reset]).cmdlatch ≠ .command .hash := by decide

theorem witness_StepKeepsLegal : ∃ s t : State, s.Legal ∧ step s = .next t :=
  ⟨base, _, legal_base, rfl⟩

theorem witness_SequencerAgrees :
    (running 3 []).phase = .run ∧ decode (running 3 []).cmdlatch = .command .cmpeq
    ∧ (walk .cmpeq (running 3 []).slen.toNat (running 3 []).dlen.toNat).length ≤ 3 := by decide

theorem witness_WalkDependsOnLengthsAlone :
    ∃ s v, s.phase = .run ∧ decode s.cmdlatch = .command .hash ∧ secTooLong s = false
      ∧ s.drawsSalt v :=
  ⟨{ withDraws countingDraws with phase := .run, cmdlatch := 1 }, counting, by decide, by decide,
    by decide, draws_counting⟩

theorem witness_WalkDependsOnLengthsAlone_compares :
    (running 2 []).phase = .run ∧ decode (running 2 []).cmdlatch = .command .verify
    ∧ secTooLong (running 2 []) = false ∧ digTooLong (running 2 []) = false := by decide

/-- Two contexts: one that runs a command while the other waits, and one that is reset. -/
theorem witness_ContextsIndependent :
    (∃ (cs : System) (c c' : State), cs[0]? = some c ∧ step c = .next c' ∧ resetPending c = false
      ∧ cs[1]? = some base)
    ∧ ∃ (cs : System) (c c' : State), cs[0]? = some c ∧ step c = .next c' ∧ resetPending c = true
      ∧ cs[1]? = some base :=
  ⟨⟨[running 3 [], base], running 3 [], _, rfl, rfl, rfl, rfl⟩,
    ⟨[withInputs [.reset], base], withInputs [.reset], _, rfl, rfl, rfl, rfl⟩⟩

end Sys2Proof.Tests
end

/-!
PROOFS. The legal states: every operation the step is made of keeps `State.Legal`, and reset meets it.
-/

namespace Sys2Proof.Machine

/-! ### Operations that keep a legal state legal -/

/-- Legality speaks of the buffers, the capacities, `STATUS` and `CMPCNT` alone. -/
theorem State.Legal.congr {s t : State} (h : s.Legal) (hsec : t.sec = s.sec) (hdig : t.dig = s.dig)
    (hsecMax : t.secMax = s.secMax) (hdigMax : t.digMax = s.digMax) (hstatus : t.status = s.status)
    (hcmpcnt : t.cmpcnt = s.cmpcnt) : t.Legal where
  secCanonical := hsec ▸ h.secCanonical
  digCanonical := hdig ▸ h.digCanonical
  secWithin := by rw [hsec, hsecMax]; exact h.secWithin
  digWithin := by rw [hdig, hdigMax]; exact h.digWithin
  secCapacity := hsecMax ▸ h.secCapacity
  digCapacity := hdigMax ▸ h.digCapacity
  statusReachable := hstatus ▸ h.statusReachable
  countZero := by rw [hstatus, hcmpcnt]; exact h.countZero

theorem State.Legal.afterDraws {s : State} (h : s.Legal) (n : Nat) : (afterDraws n s).Legal :=
  h.congr rfl rfl rfl rfl rfl rfl

theorem State.Legal.withInputs {s : State} (h : s.Legal) (l : List Input) :
    { s with inputs := l }.Legal :=
  h.congr rfl rfl rfl rfl rfl rfl

theorem State.Legal.withDlen {s : State} (h : s.Legal) (len : Word) :
    { s with dlen := len }.Legal :=
  h.congr rfl rfl rfl rfl rfl rfl

/-- A buffer may be replaced by a canonical one within its capacity. -/
theorem State.Legal.setBuffer {s : State} (h : s.Legal) {space : Space} {m : Memory}
    (hwf : m.wf = true) (hin : m.within (s.capacity space) = true) :
    (s.setBuffer space m).Legal := by
  cases space with
  | sec => exact { h with secCanonical := hwf, secWithin := hin }
  | dig => exact { h with digCanonical := hwf, digWithin := hin }

/-- A completion that writes one of the six values of `STATUS`, and no count with an error. -/
theorem State.Legal.complete {s : State} (h : s.Legal) {status cmpcnt : Word}
    (hstatus : status ∈ reachableStatus)
    (hcount : doneBit status = false ∨ errField status ≠ 0 → cmpcnt = 0) :
    (complete status cmpcnt s).Legal :=
  { h with statusReachable := hstatus, countZero := hcount }

theorem State.Legal.completeOk {s : State} (h : s.Legal) (matched : Bool) (cmpcnt : Word) :
    (Machine.complete (okStatus matched) cmpcnt s).Legal := by
  refine h.complete (okStatus_reachable matched) ?_
  rintro (hdone | herr)
  · simp [doneBit_okStatus] at hdone
  · exact absurd (errField_okStatus matched) herr

theorem State.Legal.raise {s : State} (h : s.Legal) (e : ErrorCode) : (raise e s).Legal :=
  h.complete (errorStatus_reachable e) fun _ => rfl

theorem State.Legal.zeroiseSecret {s : State} (h : s.Legal) : (zeroiseSecret s).Legal :=
  (h.setBuffer (space := .sec) wf_zeros (within_zeros _)).congr rfl rfl rfl rfl rfl rfl

theorem State.Legal.resetEvent {s : State} (h : s.Legal) : (resetEvent s).Legal where
  secCanonical := rfl
  digCanonical := rfl
  secWithin := rfl
  digWithin := rfl
  secCapacity := h.secCapacity
  digCapacity := h.digCapacity
  statusReachable := List.mem_cons_self
  countZero := fun _ => rfl

/-! ### The commands -/

theorem State.Legal.hashError {s : State} (h : s.Legal) (e : ErrorCode) : (hashError e s).Legal :=
  ((h.withDlen 0).raise e).zeroiseSecret

/-- HASH stores a digest of 149 bytes, for which every `DIG` that rule R5 allows has room. -/
theorem State.Legal.finishHash {s : State} (h : s.Legal) {salt digest : Bytes}
    (hlen : (salt ++ digest).length = 149) : (finishHash salt digest s).Legal := by
  obtain ⟨hwf, hin⟩ := legal_stored h hlen
  exact (((h.setBuffer (space := .dig) hwf hin).withDlen _).completeOk false 0).zeroiseSecret

theorem State.Legal.hashCompletion {s : State} (h : s.Legal) : (hashCompletion s).Legal := by
  rcases hashCompletion_cases s with ⟨_, heq⟩ | ⟨m, _, _, heq⟩ | ⟨v, _, _, heq⟩ <;> rw [heq]
  · exact h.hashError _
  · exact (h.afterDraws _).hashError _
  · exact (h.afterDraws _).finishHash (by simp)

theorem State.Legal.verifyCompletion {s : State} (h : s.Legal) : (verifyCompletion s).Legal := by
  cases hlong : eitherTooLong s
  · rw [verifyCompletion_compares hlong]
    exact (h.completeOk _ _).zeroiseSecret
  · rw [verifyCompletion_long hlong]
    exact (h.raise _).zeroiseSecret

theorem State.Legal.cmpeqCompletion {s : State} (h : s.Legal) : (cmpeqCompletion s).Legal := by
  cases hlong : eitherTooLong s
  · rw [cmpeqCompletion_compares hlong]
    exact h.completeOk _ _
  · rw [cmpeqCompletion_long hlong]
    exact h.raise _

theorem State.Legal.completion {s : State} (h : s.Legal) (i : Instr) : (completion i s).Legal :=
  match i with
  | .hash => h.hashCompletion
  | .verify => h.verifyCompletion
  | .cmpeq => h.cmpeqCompletion

/-! ### The outside world -/

theorem State.Legal.writeReg {s : State} (h : s.Legal) (n : Nat) (v : Word) :
    (writeReg n v s).Legal := by
  unfold Machine.writeReg
  split <;> exact h.congr rfl rfl rfl rfl rfl rfl

/-- A byte lands in a buffer only below its capacity (rule R62). -/
theorem State.Legal.writeByte {s : State} (h : s.Legal) (space : Space) (off : Nat) (v : Byte) :
    (writeByte space off v s).Legal := by
  unfold Machine.writeByte
  split
  next hcov =>
    have hin : (s.buffer space).within (s.capacity space) = true := by
      cases space with
      | sec => exact h.secWithin
      | dig => exact h.digWithin
    exact h.setBuffer (wf_write (wf_buffer h space) off v) (within_write _ hcov v hin)
  next => exact h

theorem State.Legal.portOp {s : State} (h : s.Legal) (op : PortOp) : (portOp op s).Legal :=
  match op with
  | .rdr _ => h.congr rfl rfl rfl rfl rfl rfl
  | .wrr n v => h.writeReg n v
  | .rdb _ _ => h.congr rfl rfl rfl rfl rfl rfl
  | .wrb space off v => h.writeByte space off v

theorem State.Legal.outsideMove {s : State} (h : s.Legal) : (outsideMove s).Legal := by
  unfold Machine.outsideMove
  split
  next => exact h
  next op rest _ => exact (h.withInputs rest).portOp op
  next rest _ => exact (h.withInputs rest).resetEvent
  next rest _ => exact h.withInputs rest

theorem State.Legal.passWait {s : State} (h : s.Legal) : (passWait s).Legal := by
  rcases passWait_cases s with heq | ⟨rest, _, heq⟩ <;> rw [heq]
  · exact h
  · exact h.withInputs rest

/-! ### The statements -/

/-- Settles O45: an outside move, a completion and an illegal word each keep the state legal. -/
theorem stepKeepsLegal : Obligations.StepKeepsLegal := by
  intro s t h hstep
  rcases step_cases hstep with ⟨rfl, _⟩ | ⟨_, _, ⟨i, _, rfl⟩ | ⟨_, rfl⟩⟩
  · exact h.outsideMove
  · exact h.passWait.completion i
  · exact h.passWait.raise .illegalCommand

theorem okForSec_configSecMax : Config.secMax.okForSec := by
  unfold Config.secMax
  split
  next => trivial
  next n _ =>
    have := n.isLt
    simp only [Capacity.okForSec, Config.saltLen]
    omega

theorem okForDig_configDigMax : Config.digMax.okForDig := by
  unfold Config.digMax
  split
  next => trivial
  next n _ => exact Nat.le_add_right Config.storedLen n

/-- Settles O44: the buffers are empty, and both opaque capacities are of the form rule R5 allows. -/
theorem legalAtReset : Obligations.LegalAtReset where
  secCanonical := rfl
  digCanonical := rfl
  secWithin := rfl
  digWithin := rfl
  secCapacity := okForSec_configSecMax
  digCapacity := okForDig_configDigMax
  statusReachable := List.mem_cons_self
  countZero := fun _ => rfl

end Sys2Proof.Machine

/-!
PROOFS. Every state has a next state, and phase RUN lasts one step.
-/

namespace Sys2Proof.Machine

/-- A reset that strikes ends in phase IDLE (rule R240). -/
theorem outsideMove_phase_of_resetPending {s : State} (h : resetPending s = true) :
    (outsideMove s).phase = .idle := by
  unfold resetPending at h
  split at h
  next rest hin => simp [outsideMove, hin]
  next => cases h

/-- A latched word, legal or not, is completed in phase IDLE (rule R185). -/
theorem completeLatched_idle (s : State) :
    ∃ t, completeLatched s = .next t ∧ t.phase = .idle := by
  rcases completeLatched_cases s with ⟨i, _, h⟩ | ⟨_, h⟩
  · exact ⟨_, h, (completion_frame i s).1⟩
  · exact ⟨_, h, completeIllegal_phase s⟩

/-- Settles O32, by what moves: the outside world in phase IDLE, a reset that strikes, or the latched
word's completion. -/
theorem everyCommandTerminates : Obligations.EveryCommandTerminates := by
  intro s
  cases hp : s.phase with
  | idle => exact ⟨_, step_idle hp, nofun⟩
  | run =>
    cases hr : resetPending s with
    | true => exact ⟨_, step_reset hr, fun _ => outsideMove_phase_of_resetPending hr⟩
    | false =>
      obtain ⟨t, ht, hidle⟩ := completeLatched_idle (passWait s)
      exact ⟨t, (step_run hp hr).trans ht, fun _ => hidle⟩

end Sys2Proof.Machine

/-!
PROOFS. The walk of each command, joined from the stages of Laws/Sequencer.lean, ends in the command's
completion; without error it is the walk that the two lengths give.
-/

namespace Sys2Proof.Machine

/-! ### A length error: one position (rule R204) -/

theorem walks_hash_long {s : State} (hr : Running .hash s) (hlong : secTooLong s = true) :
    Walks [.check] (seqStart s) (hashCompletion s) := by
  rw [hashCompletion_long hlong]
  exact walks_check hr (if_pos hlong)

theorem walks_verify_long {s : State} (hr : Running .verify s) (hlong : eitherTooLong s = true) :
    Walks [.check] (seqStart s) (verifyCompletion s) := by
  rw [verifyCompletion_long hlong]
  exact walks_check hr (if_pos hlong)

theorem walks_cmpeq_long {s : State} (hr : Running .cmpeq s) (hlong : eitherTooLong s = true) :
    Walks [.check] (seqStart s) (cmpeqCompletion s) := by
  rw [cmpeqCompletion_long hlong]
  exact walks_check hr (if_pos hlong)

/-! ### From the check to the first stage of the command -/

theorem walks_check_hash {s : State} (hr : Running .hash s) (hfits : secTooLong s = false) :
    Walks [.check] (seqStart s)
      (withWork { s.work with salt := [], seq := .salt 0 } (afterDraws 0 s)) :=
  walks_check hr (if_neg (hfits ▸ Bool.false_ne_true))

/-- The check and all 21 draws (rule R130). -/
theorem walks_check_salt {s : State} (hr : Running .hash s) (hfits : secTooLong s = false)
    {v : Nat → Fin 62} (hv : s.drawsSalt v) :
    ∃ w, w.salt = saltOf v ∧ Walks ([.check] ++ (List.range Config.saltLen).map .salt) (seqStart s)
      (withWork (iterationWork 1 (secretOf s ++ saltOf v) w) (afterDraws Config.saltLen s)) := by
  have hdraws := walks_salt hr (v := v) 20 0 (w := { s.work with salt := [], seq := .salt 0 }) rfl
    rfl fun q hq => by simpa using hv q hq
  rw [← List.range_eq_range'] at hdraws
  exact ⟨_, rfl, (walks_check_hash hr hfits).trans hdraws⟩

theorem walks_check_verify {s : State} (hr : Running .verify s) (hfits : eitherTooLong s = false) :
    ∃ w, w.salt = extractSalt (storedOf s) ∧ Walks [.check] (seqStart s)
      (withWork (iterationWork 1 (secretOf s ++ extractSalt (storedOf s)) w) s) :=
  ⟨{ s.work with seq := .check, salt := extractSalt (storedOf s) }, rfl,
    walks_check hr (if_neg (hfits ▸ Bool.false_ne_true))⟩

theorem walks_check_cmpeq {s : State} (hr : Running .cmpeq s) (hfits : eitherTooLong s = false) :
    ∃ w, Walks [.check] (seqStart s)
      (withWork (compareWork (secretOf s) (storedOf s) w) s) :=
  ⟨{ s.work with seq := .check }, walks_check hr (if_neg (hfits ▸ Bool.false_ne_true))⟩

/-! ### The last hex text and the comparison -/

/-- The working registers with the hex text of `H` stored (rule R118). -/
def hexWork (w : Work) : Work := { w with hexbuf := exactly 128 0 (hexEnc w.h.toBytes) }

theorem toList_hexbuf_hexWork (w : Work) : (hexWork w).hexbuf.toList = hexEnc w.h.toBytes :=
  toList_exactly 0 (by simp [length_hexEnc])

/-- The working registers in which a HASH is done: its digest is in `HEXBUF`. -/
def hashedWork (w : Work) : Work := { hexWork w with seq := .done }

theorem hashedWork_salt (w : Work) : (hashedWork w).salt = w.salt := by
  simp only [hashedWork, hexWork]

theorem toList_hexbuf_hashedWork (w : Work) :
    (hashedWork w).hexbuf.toList = hexEnc w.h.toBytes :=
  toList_hexbuf_hexWork w

/-- The working registers in which a VERIFY begins its comparison: `RBUF` holds the reconstructed
string (rule R151). -/
def reconstructedWork (stored : Bytes) (w : Work) : Work :=
  compareWork (w.salt ++ (hexWork w).hexbuf.toList) stored
    { hexWork w with rbuf := w.salt ++ (hexWork w).hexbuf.toList }

theorem seqMove_hex {w : Work} {k : Nat} (i : Instr) (s : State) (hseq : w.seq = .hex k) :
    seqMove i (withWork w s) = seqHex i k (withWork w s) := by
  simp only [seqMove, withWork_work, hseq]

theorem seqMove_lastHex_hash {w : Work} (s : State) (hseq : w.seq = .hex Config.stretches) :
    seqMove .hash (withWork w s) = withWork (hashedWork w) s := by
  rw [seqMove_hex .hash s hseq, seqHex, if_neg (Nat.lt_irrefl _)]
  rfl

theorem seqMove_lastHex_verify {w : Work} (s : State) (hseq : w.seq = .hex Config.stretches) :
    seqMove .verify (withWork w s) = withWork (reconstructedWork (storedOf s) w) s := by
  rw [seqMove_hex .verify s hseq, seqHex, if_neg (Nat.lt_irrefl _), reconstructedWork, hexWork,
    withWork_work]
  -- a name for the hex text, or `rfl` would compute it
  generalize exactly 128 0 (hexEnc w.h.toBytes) = hexbuf
  rfl

theorem seqDone_hash_withWork (w : Work) (s : State) :
    seqDone .hash (withWork w s) = finishHash w.salt w.hexbuf.toList s := rfl

/-- The last move of HASH stores the salt and the hex text (rules R134, R135). -/
theorem seqDone_hashedWork (w : Work) (s : State) :
    seqDone .hash (withWork (hashedWork w) s) = finishHash w.salt (hexEnc w.h.toBytes) s := by
  rw [seqDone_hash_withWork, hashedWork_salt, toList_hexbuf_hashedWork]

/-- A whole stretch (rule R132), when `f` is what the command's move at `S_HEX(20)` makes of the
working registers. -/
theorem walks_stretch_of_lastHex {i : Instr} {s : State} (hr : Running i s) (secret : Bytes)
    (w : Work) {f : Work → Work}
    (hf : ∀ w', w'.seq = .hex Config.stretches → seqMove i (withWork w' s) = withWork (f w') s) :
    ∃ w', Walks (walkStretch (secret.length + w.salt.length))
        (withWork (iterationWork 1 (secret ++ w.salt) w) s) (withWork (f w') s)
      ∧ hexEnc w'.h.toBytes = stretch secret w.salt ∧ w'.salt = w.salt := by
  obtain ⟨w', w'', hwalk, hhex, hsalt, hseq, hmove⟩ :=
    walks_stretch hr (w := iterationWork 1 (secret ++ w.salt) w) rfl rfl (t := s)
      fun w' hseq _ _ => ⟨f w', hf w' hseq⟩
  rw [← hmove, hf w' hseq, show (iterationWork 1 (secret ++ w.salt) w).msg.length
    = secret.length + w.salt.length from List.length_append] at hwalk
  exact ⟨w', hwalk, hhex, hsalt⟩

/-- A whole comparison and the command's last move (rules R160, R162). -/
theorem walks_compare_done {i : Instr} {s t : State} (hr : Running i s) {a b : Bytes} {w : Work}
    (hlen : min a.length b.length < 2 ^ 64)
    (hfirst : seqCompareA i (withWork (compareWork a b w) s) = a) (hsecond : storedOf s = b)
    (ht : ∀ w', (w'.diff == 0) = (slowEquals a b).1 → w'.n.toNat = (slowEquals a b).2 →
      seqDone i (withWork w' s) = t) :
    Walks (walkCompare (min a.length b.length) ++ [.done]) (withWork (compareWork a b w) s) t := by
  obtain ⟨w', hwalk, hseq, hn, hdiff⟩ :=
    walks_startCompare hr hlen (w := compareWork a b w) rfl rfl rfl hfirst hsecond
  exact hwalk.trans (walks_done hr hseq (ht w' hdiff hn))

/-! ### CMPEQ -/

theorem walks_cmpeq {s : State} (hr : Running .cmpeq s) (hfits : eitherTooLong s = false) :
    Walks (walk .cmpeq s.slen.toNat s.dlen.toNat) (seqStart s) (cmpeqCompletion s) := by
  obtain ⟨w, hcheck⟩ := walks_check_cmpeq hr hfits
  have hlen : min (secretOf s).length (storedOf s).length < 2 ^ 64 :=
    lt_of_le_of_lt (min_le_left _ _) (by simpa using s.slen.isLt)
  have hcmp := walks_compare_done (t := cmpeqCompletion s) (w := w) hr hlen rfl rfl
    fun w' hdiff hn => by
      simp only [seqDone, withWork_work, hdiff, hn, cmpeqCompletion, hfits]
      rfl
  rw [length_secretOf, length_storedOf] at hcmp
  simpa only [walk, List.append_assoc] using hcheck.trans hcmp

/-! ### VERIFY -/

theorem min_length_reconstruct (secret : Bytes) (s : State) :
    min (reconstruct secret (storedOf s)).length (storedOf s).length
      = min Config.storedLen s.dlen.toNat := by
  rw [length_reconstruct, length_storedOf, show Config.storedLen = 149 from rfl]
  omega

theorem walks_verify {s : State} (hr : Running .verify s) (hfits : eitherTooLong s = false) :
    Walks (walk .verify s.slen.toNat s.dlen.toNat) (seqStart s) (verifyCompletion s) := by
  obtain ⟨w, hw, hcheck⟩ := walks_check_verify hr hfits
  obtain ⟨w', hstretch, hhex, hsalt⟩ :=
    walks_stretch_of_lastHex hr (secretOf s) w fun _ => seqMove_lastHex_verify s
  have hrbuf : w'.salt ++ (hexWork w').hexbuf.toList = reconstruct (secretOf s) (storedOf s) := by
    rw [toList_hexbuf_hexWork, hhex, hsalt, hw]
    rfl
  have hcmp := walks_compare_done hr (t := verifyCompletion s)
    (a := reconstruct (secretOf s) (storedOf s)) (b := storedOf s)
    (w := { hexWork w' with rbuf := reconstruct (secretOf s) (storedOf s) })
    (by rw [min_length_reconstruct]; exact lt_of_le_of_lt (min_le_right _ _) s.dlen.isLt) rfl rfl
    fun w' hdiff hn => by
      simp only [seqDone, withWork_work, hdiff, hn, verifyCompletion, hfits]
      rfl
  rw [min_length_reconstruct] at hcmp
  rw [reconstructedWork, hrbuf, hw, length_secretOf, length_extractSalt, length_storedOf]
    at hstretch
  simp only [walk, List.append_assoc]
  exact hcheck.trans (hstretch.trans hcmp)

/-! ### HASH -/

theorem walks_hash {s : State} (hr : Running .hash s) (hfits : secTooLong s = false)
    {v : Nat → Fin 62} (hv : s.drawsSalt v) :
    Walks (walk .hash s.slen.toNat s.dlen.toNat) (seqStart s) (hashCompletion s) := by
  obtain ⟨w, hw, hsalt⟩ := walks_check_salt hr hfits hv
  obtain ⟨w', hstretch, hhex, hw'⟩ := walks_stretch_of_lastHex (hr.afterDraws Config.saltLen)
    (secretOf s) w fun _ => seqMove_lastHex_hash _
  have hdone : Walks [.done] (withWork (hashedWork w') (afterDraws Config.saltLen s))
      (hashCompletion s) :=
    walks_done (hr.afterDraws _) rfl
      (by rw [seqDone_hashedWork, hhex, hw', hw, hashCompletion_symbols hfits hv, Config.saltLen])
  rw [hw, length_secretOf, length_saltOf] at hstretch
  simp only [walk, List.append_assoc]
  exact hsalt.trans (hstretch.trans hdone)

/-- A HASH that fails on draw `m` has visited the check and `m + 1` draws (rule R136). -/
theorem walks_hash_fails {s : State} (hr : Running .hash s) (hfits : secTooLong s = false) {m : Nat}
    (hm : s.drawsFailAt m) :
    Walks ([.check] ++ (List.range' 0 (m + 1)).map .salt) (seqStart s) (hashCompletion s) := by
  rw [hashCompletion_fails hfits hm]
  exact (walks_check_hash hr hfits).trans (walks_salt_fails hr hm m 0 (Nat.zero_add m) rfl)

/-! ### Every command -/

theorem length_walk_pos (i : Instr) (slen dlen : Nat) : 1 ≤ (walk i slen dlen).length := by
  cases i <;> simp [walk]

theorem length_walk_hash_ge (slen dlen : Nat) : 22 ≤ (walk .hash slen dlen).length := by
  simp only [walk, List.length_append, List.length_map, List.length_range, List.length_singleton,
    Config.saltLen]
  omega

/-- The walk of a command ends in its completion, and in an error it is no longer than without. -/
theorem walks_completion {i : Instr} {s : State} (hr : Running i s) :
    ∃ ps, Walks ps (seqStart s) (completion i s)
      ∧ ps.length ≤ (walk i s.slen.toNat s.dlen.toNat).length := by
  cases i with
  | hash =>
    rcases hashCompletion_cases s with ⟨hlong, _⟩ | ⟨m, hfits, hm, _⟩ | ⟨v, hfits, hv, _⟩
    · exact ⟨_, walks_hash_long hr hlong, length_walk_pos _ _ _⟩
    · refine ⟨_, walks_hash_fails hr hfits hm, le_trans ?_ (length_walk_hash_ge _ _)⟩
      have hlt : m < 21 := hm.1
      simp only [List.length_append, List.length_map, List.length_range', List.length_singleton]
      omega
    · exact ⟨_, walks_hash hr hfits hv, le_rfl⟩
  | verify =>
    cases hlong : eitherTooLong s
    · exact ⟨_, walks_verify hr hlong, le_rfl⟩
    · exact ⟨_, walks_verify_long hr hlong, length_walk_pos _ _ _⟩
  | cmpeq =>
    cases hlong : eitherTooLong s
    · exact ⟨_, walks_cmpeq hr hlong, le_rfl⟩
    · exact ⟨_, walks_cmpeq_long hr hlong, length_walk_pos _ _ _⟩

/-- Settles O46: the walk ends in the completion, which is in phase IDLE, where the sequencer rests. -/
theorem sequencerAgrees : Obligations.SequencerAgrees := by
  intro s i n hphase hlatch hn
  obtain ⟨ps, hwalk, hlen⟩ := walks_completion (Running.mk hphase hlatch)
  have hidle := (completion_frame i s).1
  rw [exec_eq, (hwalk.complete hidle (le_trans hlen hn)).1]

end Sys2Proof.Machine

/-!
PROOFS. The host port in phase IDLE: the operation that moves, what is out of range, and that no
outside move but a reset writes `STATUS`, `CMPCNT` or the entropy device. The values of the reset
state.
-/

namespace Sys2Proof.Machine

/-! ### The port operation that moves -/

theorem outsideMove_port {s : State} {op : PortOp} {rest : List Input}
    (h : s.inputs = .port op :: rest) : outsideMove s = portOp op { s with inputs := rest } := by
  simp only [outsideMove, h]

/-- In phase IDLE a port operation is performed at once (rules R180 to R183). -/
theorem step_port {s : State} {op : PortOp} {rest : List Input} (hidle : s.phase = .idle)
    (h : s.inputs = .port op :: rest) : step s = .next (portOp op { s with inputs := rest }) := by
  rw [step_idle hidle, outsideMove_port h]

/-- Settles O33: the port operation that moves is the write to register 0. -/
theorem writeToCmdIssues : Obligations.WriteToCmdIssues := by
  intro s v rest hidle hin
  exact ⟨_, step_port hidle hin, rfl⟩

/-! ### Out of range (rules R31, R62) -/

theorem readReg_of_nine_le {n : Nat} (h : 9 ≤ n) (s : State) : readReg n s = 0 := by
  obtain ⟨k, rfl⟩ := Nat.exists_eq_add_of_le' h
  rfl

theorem writeReg_of_nine_le {n : Nat} (h : 9 ≤ n) (v : Word) (s : State) : writeReg n v s = s := by
  obtain ⟨k, rfl⟩ := Nat.exists_eq_add_of_le' h
  rfl

theorem readByte_of_not_covers {space : Space} {off : Nat} {s : State}
    (h : (s.capacity space).covers off = false) : readByte space off s = 0 :=
  if_neg (h ▸ Bool.false_ne_true)

theorem writeByte_of_not_covers {space : Space} {off : Nat} {s : State}
    (h : (s.capacity space).covers off = false) (v : Byte) : writeByte space off v s = s :=
  if_neg (h ▸ Bool.false_ne_true)

/-- Consuming the script leaves the capacities. -/
theorem capacity_withInputs (s : State) (l : List Input) (space : Space) :
    { s with inputs := l }.capacity space = s.capacity space := by
  cases space <;> rfl

/-- Settles O39, operation by operation: what is answered or stored is out of range. -/
theorem outOfRangeIgnored : Obligations.OutOfRangeIgnored := by
  intro s op rest hidle hin
  rw [step_port hidle hin]
  refine ⟨?rdr, ?wrr, ?rdb, ?wrb⟩
  case rdr =>
    rintro n rfl hn
    simp only [portOp, reply, readReg_of_nine_le hn]
  case wrr =>
    rintro n v rfl hn
    simp only [portOp, writeReg_of_nine_le hn]
  case rdb =>
    rintro space off rfl hoff
    rw [← capacity_withInputs s rest] at hoff
    simp only [portOp, reply, readByte_of_not_covers hoff]
  case wrb =>
    rintro space off v rfl hoff
    rw [← capacity_withInputs s rest] at hoff
    simp only [portOp, writeByte_of_not_covers hoff]

/-! ### What only completions and reset write (rules R23, R26, R39) -/

/-- `t` has the results of the last command and the entropy device as `s` has them. -/
structure SameResultsAndDraws (s t : State) : Prop where
  status : t.status = s.status
  cmpcnt : t.cmpcnt = s.cmpcnt
  entropy : t.entropy = s.entropy
  draws : t.draws = s.draws

theorem writeReg_keeps_results (n : Nat) (v : Word) (s : State) :
    SameResultsAndDraws s (writeReg n v s) := by
  unfold writeReg
  split <;> exact ⟨rfl, rfl, rfl, rfl⟩

theorem setBuffer_keeps_results (s : State) (space : Space) (m : Memory) :
    SameResultsAndDraws s (s.setBuffer space m) := by
  cases space <;> exact ⟨rfl, rfl, rfl, rfl⟩

theorem writeByte_keeps_results (space : Space) (off : Nat) (v : Byte) (s : State) :
    SameResultsAndDraws s (writeByte space off v s) := by
  unfold writeByte
  split
  · exact setBuffer_keeps_results s space _
  · exact ⟨rfl, rfl, rfl, rfl⟩

theorem portOp_keeps_results (op : PortOp) (s : State) : SameResultsAndDraws s (portOp op s) :=
  match op with
  | .rdr _ => ⟨rfl, rfl, rfl, rfl⟩
  | .wrr n v => writeReg_keeps_results n v s
  | .rdb _ _ => ⟨rfl, rfl, rfl, rfl⟩
  | .wrb space off v => writeByte_keeps_results space off v s

/-- An outside move that is no reset. -/
theorem outsideMove_keeps_results {s : State} (h : resetPending s = false) :
    SameResultsAndDraws s (outsideMove s) := by
  unfold outsideMove
  split
  next => exact ⟨rfl, rfl, rfl, rfl⟩
  next op rest _ =>
    obtain ⟨hstatus, hcmpcnt, hentropy, hdraws⟩ := portOp_keeps_results op { s with inputs := rest }
    exact ⟨hstatus, hcmpcnt, hentropy, hdraws⟩
  next hin => simp [resetPending, hin] at h
  next => exact ⟨rfl, rfl, rfl, rfl⟩

/-- Settles O41: in phase IDLE the outside world moves, and only its reset writes results. -/
theorem onlyCompletionsWriteStatus : Obligations.OnlyCompletionsWriteStatus := by
  intro s t hstep hchanged
  cases hphase : s.phase with
  | run => exact .inl rfl
  | idle =>
    refine .inr (Bool.of_not_eq_false fun hr => ?_)
    rw [step_idle hphase] at hstep
    cases hstep
    obtain ⟨hstatus, hcmpcnt, hentropy, hdraws⟩ := outsideMove_keeps_results hr
    simp [hstatus, hcmpcnt, hentropy, hdraws] at hchanged

/-! ### The reset state (rule R41) -/

/-- A bounded capacity shows itself, cut at the largest word (rules R29, R30). -/
theorem toNat_shown_bounded (n : Nat) :
    (Capacity.bounded n).shown.toNat = min n (2 ^ 64 - 1) := by
  rw [Capacity.shown, BitVec.toNat_ofNat]
  exact Nat.mod_eq_of_lt (lt_of_le_of_lt (min_le_right _ _) (by decide))

theorem toNat_shown_unbounded : Capacity.unbounded.shown.toNat = 2 ^ 64 - 1 := rfl

theorem readReg_secMax (s : State) : readReg 7 s = s.secMax.shown := rfl

theorem readReg_digMax (s : State) : readReg 8 s = s.digMax.shown := rfl

theorem reset_secMax : State.reset.secMax = Config.secMax := rfl

theorem reset_digMax : State.reset.digMax = Config.digMax := rfl

/-- Settles O42: the values stand in `State.reset`; an open capacity shows by its two forms. -/
theorem resetStateValues : Obligations.ResetStateValues := by
  refine ⟨rfl, rfl, rfl, rfl, read_nil, read_nil, rfl, rfl, rfl, rfl, ?_, ?_⟩
  · rw [readReg_secMax, reset_secMax]
    cases Config.secMax with
    | bounded n => exact toNat_shown_bounded n
    | unbounded => exact toNat_shown_unbounded
  · rw [readReg_digMax, reset_digMax]
    cases Config.digMax with
    | bounded n => exact toNat_shown_bounded n
    | unbounded => exact toNat_shown_unbounded

end Sys2Proof.Machine

/-!
PROOFS. What the commands clear, what they leave and what they read: the secret, the frame of every
completion, and two contexts with the same operands side by side.
-/

namespace Sys2Proof.Machine

/-! ### The secret (rule R43) -/

theorem hashCompletion_secret (s : State) :
    (hashCompletion s).sec = Memory.zeros ∧ (hashCompletion s).slen = 0 := by
  rcases hashCompletion_cases s with ⟨_, h⟩ | ⟨m, _, _, h⟩ | ⟨v, _, _, h⟩ <;> rw [h]
  · exact ⟨hashError_sec _ _, hashError_slen _ _⟩
  · exact ⟨hashError_sec _ _, hashError_slen _ _⟩
  · exact ⟨finishHash_sec _ _ _, finishHash_slen _ _ _⟩

theorem verifyCompletion_secret (s : State) :
    (verifyCompletion s).sec = Memory.zeros ∧ (verifyCompletion s).slen = 0 := by
  cases hlong : eitherTooLong s
  · rw [verifyCompletion_compares hlong]
    exact ⟨finishVerify_sec _ _ _, finishVerify_slen _ _ _⟩
  · rw [verifyCompletion_long hlong]
    exact ⟨verifyError_sec _ _, verifyError_slen _ _⟩

theorem cmpeqCompletion_secret (s : State) :
    (cmpeqCompletion s).sec = s.sec ∧ (cmpeqCompletion s).slen = s.slen := by
  cases hlong : eitherTooLong s
  · rw [cmpeqCompletion_compares hlong]
    exact ⟨finishCmpeq_sec _ _ _, finishCmpeq_slen _ _ _⟩
  · rw [cmpeqCompletion_long hlong]
    exact ⟨cmpeqError_sec _ _, cmpeqError_slen _ _⟩

/-- HASH and VERIFY, the two commands on a secret, clear it. -/
theorem completion_zeroises {i : Instr} (hi : i ≠ .cmpeq) (s : State) :
    (completion i s).sec = Memory.zeros ∧ (completion i s).slen = 0 :=
  match i, hi with
  | .hash, _ => hashCompletion_secret s
  | .verify, _ => verifyCompletion_secret s

theorem passWait_secret (s : State) :
    (passWait s).sec = s.sec ∧ (passWait s).slen = s.slen := by
  rcases passWait_cases s with h | ⟨rest, _, h⟩ <;> rw [h] <;> exact ⟨rfl, rfl⟩

/-- In phase RUN, with no reset striking, a word that spells no command completes as one
(rule R203). -/
theorem step_illegal {s : State} {why : IllegalWord} (hrun : s.phase = .run)
    (hr : resetPending s = false) (hword : decode s.cmdlatch = .illegal why) :
    step s = .next (completeIllegal (passWait s)) := by
  rw [step_run hrun hr, completeLatched, passWait_cmdlatch, hword]

/-- Settles O25: HASH and VERIFY end in zeroisation on each path, CMPEQ and illegal words do not. -/
theorem secretZeroised : Obligations.SecretZeroised := by
  intro s
  refine ⟨fun i hi => ?_, ⟨_, exec_eq .cmpeq s, cmpeqCompletion_secret s⟩,
    fun why hrun hr hword => ?_⟩
  · obtain ⟨hsec, hslen⟩ := completion_zeroises hi s
    exact ⟨_, exec_eq i s, fun off => by rw [hsec, read_zeros], hslen⟩
  · exact ⟨_, step_illegal hrun hr hword, passWait_secret s⟩

/-! ### The frame (rules R33, R68) -/

/-- The 149 bytes that HASH stores, and nothing beyond them (rule R135). -/
theorem read_finishHash {s : State} (hwf : s.dig.wf = true) (salt digest : Bytes) (off : Nat) :
    (finishHash salt digest s).dig.read off =
      if off < (salt ++ digest).length then (salt ++ digest).getD off 0 else s.dig.read off := by
  rw [finishHash_dig, read_writeBytes _ _ _ hwf]
  simp only [Nat.zero_le, true_and, Nat.zero_add, Nat.sub_zero]

theorem length_salt_stretch (v : Nat → Fin 62) (secret : Bytes) :
    (saltOf v ++ stretch secret (saltOf v)).length = 149 := by
  simp

/-- HASH leaves every byte of `DIG` from offset 149 on. -/
theorem hashCompletion_read_beyond {s : State} (h : s.Legal) {off : Nat} (hoff : 149 ≤ off) :
    (hashCompletion s).dig.read off = s.dig.read off := by
  rcases hashCompletion_cases s with ⟨_, heq⟩ | ⟨m, _, _, heq⟩ | ⟨v, _, _, heq⟩ <;> rw [heq]
  · rw [hashError_dig]
  · rw [hashError_dig, afterDraws_dig]
  · rw [read_finishHash (h.afterDraws 21).digCanonical, length_salt_stretch,
      if_neg (Nat.not_lt.2 hoff), afterDraws_dig]

/-- A HASH that ends in an error leaves `DIG` (rule R136). -/
theorem hashCompletion_dig_of_error {s : State} (herr : errField (hashCompletion s).status ≠ 0) :
    (hashCompletion s).dig = s.dig := by
  rcases hashCompletion_cases s with ⟨_, heq⟩ | ⟨m, _, _, heq⟩ | ⟨v, _, _, heq⟩ <;>
    rw [heq] at herr ⊢
  · exact hashError_dig _ _
  · exact hashError_dig _ _
  · exact absurd (errField_okStatus false) herr

/-- VERIFY and CMPEQ write no part of `DIG`, not `DLEN`, and draw nothing (rules R153, R164). -/
theorem completion_leaves_stored {i : Instr} (hi : i ≠ .hash) (s : State) :
    (completion i s).dig = s.dig ∧ (completion i s).dlen = s.dlen
      ∧ (completion i s).world = s.world := by
  match i, hi with
  | .verify, _ =>
    rw [completion]
    cases hlong : eitherTooLong s
    · rw [verifyCompletion_compares hlong]
      exact ⟨rfl, rfl, rfl⟩
    · rw [verifyCompletion_long hlong]
      exact ⟨rfl, rfl, rfl⟩
  | .cmpeq, _ =>
    rw [completion]
    cases hlong : eitherTooLong s
    · rw [cmpeqCompletion_compares hlong]
      exact ⟨rfl, rfl, rfl⟩
    · rw [cmpeqCompletion_long hlong]
      exact ⟨rfl, rfl, rfl⟩

theorem completion_dig_of_error {i : Instr} {s : State}
    (herr : errField (completion i s).status ≠ 0) : (completion i s).dig = s.dig := by
  by_cases hi : i = .hash
  · subst hi
    exact hashCompletion_dig_of_error herr
  · exact (completion_leaves_stored hi s).1

/-- Settles O26: what every completion leaves, then what VERIFY and CMPEQ leave and what HASH
leaves. -/
theorem commandFrame : Obligations.CommandFrame := by
  intro s i h
  obtain ⟨hphase, _, hinputs, hreplies, hsecMax, hdigMax, hstream⟩ := completion_frame i s
  refine ⟨_, exec_eq i s, hsecMax, hdigMax, hinputs, hreplies, hstream, hphase,
    fun hi => completion_leaves_stored hi s, ?_, completion_dig_of_error⟩
  rintro rfl off hoff
  exact hashCompletion_read_beyond h hoff

/-! ### Two contexts with the same operands (rules R35, R39, R68) -/

/-- `t` and `r` agree on the results of a command beside the buffers, and on the world around. -/
structure SameOutcome (t r : State) : Prop where
  status : r.status = t.status
  cmpcnt : r.cmpcnt = t.cmpcnt
  slen : r.slen = t.slen
  dlen : r.dlen = t.dlen
  phase : r.phase = t.phase
  world : r.world = t.world

/-- No error has the code of a completion without error (rule R201). -/
theorem code_ne_zero (e : ErrorCode) : e.code ≠ 0 := by
  cases e <;> decide

section SameOperands

variable {s u : State}

theorem SameOperands.secretOf (h : SameOperands s u) : secretOf u = secretOf s :=
  secretOf_congr h.slen h.secBytes

theorem SameOperands.storedOf (h : SameOperands s u) : storedOf u = storedOf s :=
  storedOf_congr h.dlen h.digBytes

theorem SameOperands.secTooLong (h : SameOperands s u) : secTooLong u = secTooLong s :=
  secTooLong_congr h.slen h.secMax

theorem SameOperands.eitherTooLong (h : SameOperands s u) : eitherTooLong u = eitherTooLong s := by
  rw [Machine.eitherTooLong, Machine.eitherTooLong, h.secTooLong,
    digTooLong_congr h.dlen h.digMax]

/-- The entropy device's answers are a function of the world around (log 4). -/
theorem answer_congr (h : u.world = s.world) (j : Nat) : u.answer j = s.answer j := by
  simp only [State.answer, ← world_entropy, ← world_stream, ← world_draws, h]

theorem afterDraws_world_congr (h : u.world = s.world) (n : Nat) :
    (afterDraws n u).world = (afterDraws n s).world := by
  simp only [State.world, World.mk.injEq] at h
  obtain ⟨hentropy, hstream, hdraws, hinputs, hreplies⟩ := h
  simp only [State.world, afterDraws, hentropy, hstream, hdraws, hinputs, hreplies]

theorem drawsSalt_congr (h : u.world = s.world) {v : Nat → Fin 62} (hv : s.drawsSalt v) :
    u.drawsSalt v := fun j hj => (answer_congr h j).trans (hv j hj)

theorem drawsFailAt_congr (h : u.world = s.world) {m : Nat} (hm : s.drawsFailAt m) :
    u.drawsFailAt m := by
  obtain ⟨hlt, hfail, hfirst⟩ := hm
  refine ⟨hlt, (answer_congr h m).trans hfail, fun j hj => ?_⟩
  rw [answer_congr h]
  exact hfirst j hj

/-- HASH ends in both contexts in the same error, or in both with the same 149 bytes, after the same
number of draws. -/
theorem SameOperands.hashCompletion (h : SameOperands s u) (hw : u.world = s.world) :
    (∃ e n, hashCompletion s = hashError e (afterDraws n s)
        ∧ hashCompletion u = hashError e (afterDraws n u))
    ∨ ∃ salt digest, (salt ++ digest).length = 149
        ∧ hashCompletion s = finishHash salt digest (afterDraws 21 s)
        ∧ hashCompletion u = finishHash salt digest (afterDraws 21 u) := by
  rcases hashCompletion_cases s with ⟨hlong, hs⟩ | ⟨m, hfits, hm, hs⟩ | ⟨v, hfits, hv, hs⟩
  · exact .inl ⟨.lengthError, 0, hs, hashCompletion_long (h.secTooLong.trans hlong)⟩
  · exact .inl ⟨.entropyFailure, m + 1, hs,
      hashCompletion_fails (h.secTooLong.trans hfits) (drawsFailAt_congr hw hm)⟩
  · refine .inr ⟨saltOf v, _, length_salt_stretch v (Machine.secretOf s), hs, ?_⟩
    rw [← h.secretOf]
    exact hashCompletion_symbols (h.secTooLong.trans hfits) (drawsSalt_congr hw hv)

theorem SameOperands.verifyCompletion (h : SameOperands s u) :
    (verifyCompletion s = verifyError .lengthError s
        ∧ verifyCompletion u = verifyError .lengthError u)
    ∨ ∃ eq cnt, verifyCompletion s = finishVerify eq cnt s
        ∧ verifyCompletion u = finishVerify eq cnt u := by
  cases hlong : Machine.eitherTooLong s
  · refine .inr ⟨_, _, verifyCompletion_compares hlong, ?_⟩
    rw [verifyCompletion_compares (h.eitherTooLong.trans hlong), h.secretOf, h.storedOf, h.dlen]
  · exact .inl ⟨verifyCompletion_long hlong, verifyCompletion_long (h.eitherTooLong.trans hlong)⟩

theorem SameOperands.cmpeqCompletion (h : SameOperands s u) :
    (cmpeqCompletion s = cmpeqError .lengthError s
        ∧ cmpeqCompletion u = cmpeqError .lengthError u)
    ∨ ∃ eq cnt, cmpeqCompletion s = finishCmpeq eq cnt s
        ∧ cmpeqCompletion u = finishCmpeq eq cnt u := by
  cases hlong : Machine.eitherTooLong s
  · refine .inr ⟨_, _, cmpeqCompletion_compares hlong, ?_⟩
    rw [cmpeqCompletion_compares (h.eitherTooLong.trans hlong), h.secretOf, h.storedOf, h.slen,
      h.dlen]
  · exact .inl ⟨cmpeqCompletion_long hlong, cmpeqCompletion_long (h.eitherTooLong.trans hlong)⟩

theorem SameOperands.completion (h : SameOperands s u) (hw : u.world = s.world) (i : Instr) :
    SameOutcome (completion i s) (completion i u) := by
  cases i with
  | hash =>
    rw [Machine.completion, Machine.completion]
    rcases h.hashCompletion hw with ⟨e, n, hs, hu⟩ | ⟨salt, digest, _, hs, hu⟩ <;> rw [hs, hu]
    · exact ⟨rfl, rfl, rfl, rfl, rfl, afterDraws_world_congr hw n⟩
    · exact ⟨rfl, rfl, rfl, rfl, rfl, afterDraws_world_congr hw 21⟩
  | verify =>
    rw [Machine.completion, Machine.completion]
    rcases h.verifyCompletion with ⟨hs, hu⟩ | ⟨eq, cnt, hs, hu⟩ <;> rw [hs, hu]
    · exact ⟨rfl, rfl, rfl, h.dlen, rfl, hw⟩
    · exact ⟨rfl, rfl, rfl, h.dlen, rfl, hw⟩
  | cmpeq =>
    rw [Machine.completion, Machine.completion]
    rcases h.cmpeqCompletion with ⟨hs, hu⟩ | ⟨eq, cnt, hs, hu⟩ <;> rw [hs, hu]
    · exact ⟨rfl, rfl, h.slen, h.dlen, rfl, hw⟩
    · exact ⟨rfl, rfl, h.slen, h.dlen, rfl, hw⟩

/-- After a HASH without error both contexts hold the same 149 bytes, whatever `DIG` held. -/
theorem SameOperands.hash_digest (h : SameOperands s u) (hw : u.world = s.world) (hs : s.Legal)
    (hu : u.Legal) (hok : errField (Machine.hashCompletion s).status = 0) {j : Nat} (hj : j < 149) :
    (Machine.hashCompletion u).dig.read j = (Machine.hashCompletion s).dig.read j := by
  rcases h.hashCompletion hw with ⟨e, n, hes, _⟩ | ⟨salt, digest, hlen, hes, heu⟩
  · rw [hes, hashError_status, errField_errorStatus] at hok
    exact absurd hok (code_ne_zero e)
  · rw [hes, heu, read_finishHash (hs.afterDraws 21).digCanonical,
      read_finishHash (hu.afterDraws 21).digCanonical, hlen, if_pos hj, if_pos hj]

end SameOperands

/-- Settles O29: each command ends in both contexts in the same way, with the same arguments. -/
theorem onlyOperandsAreRead : Obligations.OnlyOperandsAreRead := by
  intro s u i hs hu h hw
  obtain ⟨hstatus, hcmpcnt, hslen, hdlen, hphase, hworld⟩ := h.completion hw i
  refine ⟨_, _, exec_eq i s, exec_eq i u, hstatus, hcmpcnt, hslen, hdlen, hphase, hworld, ?_⟩
  rintro rfl hok j hj
  exact h.hash_digest hw hs hu hok hj

end Sys2Proof.Machine

/-!
PROOFS. The bytes of the buffers through the host port: a write in range and the read that follows it.
-/

namespace Sys2Proof.Machine

/-! ### What replacing a buffer leaves -/

/-- Consuming the script leaves the buffers. -/
theorem buffer_withInputs (s : State) (l : List Input) (space : Space) :
    { s with inputs := l }.buffer space = s.buffer space := by
  cases space <;> rfl

/-- `t` has the registers, the phase, the capacities and the world around as `s` has them. -/
structure SameBesideBuffers (s t : State) : Prop where
  status : t.status = s.status
  slen : t.slen = s.slen
  dlen : t.dlen = s.dlen
  cmpcnt : t.cmpcnt = s.cmpcnt
  phase : t.phase = s.phase
  secMax : t.secMax = s.secMax
  digMax : t.digMax = s.digMax
  world : t.world = s.world

theorem setBuffer_sameBesideBuffers (s : State) (space : Space) (m : Memory) :
    SameBesideBuffers s (s.setBuffer space m) := by
  cases space <;> exact ⟨rfl, rfl, rfl, rfl, rfl, rfl, rfl, rfl⟩

/-! ### Bytes in range (rules R182, R183) -/

section InRange

variable {s : State} {space : Space} {off : Nat} {rest : List Input}

theorem readByte_of_covers (h : (s.capacity space).covers off = true) :
    readByte space off s = (s.buffer space).read off :=
  if_pos h

theorem writeByte_of_covers (h : (s.capacity space).covers off = true) (v : Byte) :
    writeByte space off v s = s.setBuffer space ((s.buffer space).write off v) :=
  if_pos h

theorem step_rdb (hidle : s.phase = .idle) (hin : s.inputs = .port (.rdb space off) :: rest)
    (hcov : (s.capacity space).covers off = true) :
    step s = .next { s with
      inputs := rest, replies := s.replies ++ [.byte ((s.buffer space).read off)] } := by
  rw [← capacity_withInputs s rest] at hcov
  rw [step_port hidle hin, portOp, readByte_of_covers hcov, buffer_withInputs, reply]

theorem step_wrb {v : Byte} (hidle : s.phase = .idle)
    (hin : s.inputs = .port (.wrb space off v) :: rest)
    (hcov : (s.capacity space).covers off = true) :
    step s = .next
      ({ s with inputs := rest }.setBuffer space ((s.buffer space).write off v)) := by
  rw [← capacity_withInputs s rest] at hcov
  rw [step_port hidle hin, portOp, writeByte_of_covers hcov, buffer_withInputs]

end InRange

/-- Settles O38: the buffer after `WRB` reads as the buffer laws say, its replacement leaves all
else, and `RDB` answers what that buffer holds. -/
theorem byteWriteThenRead : Obligations.ByteWriteThenRead := by
  intro s space off v rest hlegal hidle hcov hin
  have hwf := wf_buffer hlegal space
  obtain ⟨hstatus, hslen, hdlen, hcmpcnt, hphase, hsecMax, hdigMax, hworld⟩ :=
    setBuffer_sameBesideBuffers { s with inputs := .port (.rdb space off) :: rest } space
      ((s.buffer space).write off v)
  obtain ⟨hentropy, _, _, hinputs, hreplies⟩ := World.mk.inj hworld
  have hread := step_rdb (hphase.trans hidle) hinputs
    (by rwa [capacity_setBuffer, capacity_withInputs])
  rw [buffer_setBuffer_same, read_write_same hwf, hreplies] at hread
  refine ⟨_, _, step_wrb hidle hin hcov, hread, ?same, ?others, ?otherBuffer, hstatus, hslen, hdlen,
    hcmpcnt, hphase, hsecMax, hdigMax, hentropy, hreplies, rfl⟩
  case same => rw [buffer_setBuffer_same, read_write_same hwf]
  case others =>
    intro o ho
    rw [buffer_setBuffer_same, read_write_other hwf ho]
  case otherBuffer =>
    intro other hother
    rw [buffer_setBuffer_other _ hother, buffer_withInputs]

end Sys2Proof.Machine

/-!
PROOFS. The command word and the symbol tables: what the decoder answers by the two fields of a
word, and the bytes of the salt alphabet and of the hex digits by range.
-/

namespace Sys2Proof

/-! ### The fields of a word (rule R70) -/

@[simp] theorem opField_toNat (w : Word) : (opField w).toNat = w.toNat % 256 := by
  simp [opField]

@[simp] theorem rsvField_toNat (w : Word) : (rsvField w).toNat = w.toNat / 256 := by
  rw [rsvField, BitVec.extractLsb'_toNat, Nat.shiftRight_eq_div_pow]
  omega

theorem rsvField_eq_zero_iff {w : Word} : rsvField w = 0#56 ↔ w.toNat / 256 = 0 := by
  rw [← BitVec.toNat_inj, rsvField_toNat, BitVec.toNat_zero]

/-- `OP` and `RSV` are the whole word. -/
theorem eq_of_fields_eq {w v : Word} (hrsv : rsvField w = rsvField v)
    (hop : opField w = opField v) : w = v := by
  have hdiv := congrArg BitVec.toNat hrsv
  have hmod := congrArg BitVec.toNat hop
  rw [rsvField_toNat, rsvField_toNat] at hdiv
  rw [opField_toNat, opField_toNat] at hmod
  exact BitVec.eq_of_toNat_eq (by omega)

theorem encoding_statement : ∀ i : Instr, Laws.Encoding.Statement i
  | .hash => Laws.Encoding.hash
  | .verify => Laws.Encoding.verify
  | .cmpeq => Laws.Encoding.cmpeq

@[simp] theorem rsvField_encode (i : Instr) : rsvField (encode i) = 0#56 := by
  obtain ⟨_, _, hrsv, _⟩ := encoding_statement i
  exact hrsv

@[simp] theorem opField_encode (i : Instr) : opField (encode i) = opcodeOf i := by
  obtain ⟨_, _, _, hop, _⟩ := encoding_statement i
  exact hop

theorem eq_encode_iff {w : Word} {i : Instr} :
    w = encode i ↔ rsvField w = 0#56 ∧ opField w = opcodeOf i := by
  constructor
  · rintro rfl
    exact ⟨rsvField_encode i, opField_encode i⟩
  · rintro ⟨hrsv, hop⟩
    exact eq_of_fields_eq (hrsv.trans (rsvField_encode i).symm) (hop.trans (opField_encode i).symm)

/-! ### The opcode map (rule R71) -/

@[simp] theorem decodeOp_opcodeOf (i : Instr) : decodeOp (opcodeOf i) = .command i := by
  cases i <;> rfl

/-- What the opcode map answers: the command whose code it is given, or that no command has it. -/
theorem decodeOp_cases (op : BitVec 8) :
    (∃ i, op = opcodeOf i ∧ decodeOp op = .command i)
    ∨ (op.toNat ∉ [0x01, 0x02, 0x03] ∧ decodeOp op = .illegal .unassignedOp) := by
  by_cases h1 : op = 0x01#8
  · exact .inl ⟨.hash, h1, h1 ▸ rfl⟩
  by_cases h2 : op = 0x02#8
  · exact .inl ⟨.verify, h2, h2 ▸ rfl⟩
  by_cases h3 : op = 0x03#8
  · exact .inl ⟨.cmpeq, h3, h3 ▸ rfl⟩
  · refine .inr ⟨?_, by rw [decodeOp, if_neg h1, if_neg h2, if_neg h3]⟩
    simpa [← BitVec.toNat_inj] using And.intro h1 (And.intro h2 h3)

theorem opcodeOf_toNat_mem (i : Instr) : (opcodeOf i).toNat ∈ [0x01, 0x02, 0x03] := by
  cases i <;> decide

theorem decodeOp_eq_command_iff {op : BitVec 8} {i : Instr} :
    decodeOp op = .command i ↔ op = opcodeOf i := by
  refine ⟨fun h => ?_, fun h => h ▸ decodeOp_opcodeOf i⟩
  rcases decodeOp_cases op with ⟨j, hop, hj⟩ | ⟨_, hno⟩
  · cases hj.symm.trans h
    exact hop
  · cases hno.symm.trans h

theorem decodeOp_eq_unassignedOp_iff {op : BitVec 8} :
    decodeOp op = .illegal .unassignedOp ↔ op.toNat ∉ [0x01, 0x02, 0x03] := by
  rcases decodeOp_cases op with ⟨i, rfl, hi⟩ | ⟨hmem, hno⟩
  · simp only [hi, opcodeOf_toNat_mem, not_true, reduceCtorEq]
  · exact iff_of_true hno hmem

theorem exists_opcodeOf_iff {op : BitVec 8} :
    (∃ i, op = opcodeOf i) ↔ op.toNat ∈ [0x01, 0x02, 0x03] := by
  refine ⟨fun ⟨i, hi⟩ => hi ▸ opcodeOf_toNat_mem i, fun hmem => ?_⟩
  rcases decodeOp_cases op with ⟨i, hop, _⟩ | ⟨hno, _⟩
  · exact ⟨i, hop⟩
  · exact absurd hmem hno

/-! ### The decoder (rules R70, R72) -/

theorem decode_of_rsv_zero {w : Word} (h : rsvField w = 0#56) : decode w = decodeOp (opField w) :=
  if_pos h

theorem decode_of_rsv_ne_zero {w : Word} (h : rsvField w ≠ 0#56) :
    decode w = .illegal .reservedBits :=
  if_neg h

theorem decode_eq_command_iff {w : Word} {i : Instr} : decode w = .command i ↔ w = encode i := by
  rw [eq_encode_iff]
  by_cases h : rsvField w = 0#56
  · rw [decode_of_rsv_zero h, decodeOp_eq_command_iff, and_iff_right h]
  · simp only [decode_of_rsv_ne_zero h, h, false_and, reduceCtorEq]

@[simp] theorem decode_encode (i : Instr) : decode (encode i) = .command i :=
  decode_eq_command_iff.mpr rfl

theorem decode_eq_reservedBits_iff {w : Word} :
    decode w = .illegal .reservedBits ↔ rsvField w ≠ 0#56 := by
  refine ⟨fun h hrsv => ?_, decode_of_rsv_ne_zero⟩
  rw [decode_of_rsv_zero hrsv] at h
  rcases decodeOp_cases (opField w) with ⟨i, _, hi⟩ | ⟨_, hno⟩
  · cases hi.symm.trans h
  · cases hno.symm.trans h

theorem decode_eq_unassignedOp_iff {w : Word} :
    decode w = .illegal .unassignedOp
      ↔ rsvField w = 0#56 ∧ (opField w).toNat ∉ [0x01, 0x02, 0x03] := by
  by_cases h : rsvField w = 0#56
  · rw [decode_of_rsv_zero h, decodeOp_eq_unassignedOp_iff, and_iff_right h]
  · simp only [decode_of_rsv_ne_zero h, h, false_and, Decoded.illegal.injEq, reduceCtorEq]

theorem rsvZero_iff {w : Word} : rsvZero w = true ↔ rsvField w = 0#56 := by
  simp [rsvField_eq_zero_iff, rsvZero]

theorem opAssigned_iff {w : Word} : opAssigned w = true ↔ ∃ i, opField w = opcodeOf i := by
  simp only [exists_opcodeOf_iff, opAssigned, opField_toNat, Bool.and_eq_true, decide_eq_true_eq,
    List.mem_cons, List.not_mem_nil, or_false]
  omega

/-- The two checks, written from the prose, let through the words of the commands. -/
theorem wellFormedWord_iff {w : Word} : wellFormedWord w = true ↔ ∃ i, w = encode i := by
  simp only [wellFormedWord, Bool.and_eq_true, rsvZero_iff, opAssigned_iff, eq_encode_iff,
    exists_and_left]

theorem decodeTableWord_of_decode {w : Word} {i : Instr} (h : decode w = .command i) :
    decodeTableWord 64 w.toNat = some i := by
  rw [decodeTableWord, Nat.mod_eq_of_lt w.isLt, if_pos w.isLt, BitVec.ofNat_toNat,
    BitVec.setWidth_eq, h]

/-! ### The statements on the encoding -/

/-- Settles O2: a word decodes to a command just when it is that command's encoding. -/
theorem decodeInvertsEncode : Obligations.DecodeInvertsEncode := by
  refine ⟨fun i _ => decode_encode i, fun w i => decode_eq_command_iff.mp, fun w => ?_,
    fun i => decodeTableWord_of_decode (decode_encode i)⟩
  simp only [wellFormedWord_iff, decode_eq_command_iff]

/-- Settles O3: the decoder's two refusals, with the fields of the word as numbers. -/
theorem illegalWordsNamed : Obligations.IllegalWordsNamed := by
  intro w
  constructor
  · rw [decode_eq_reservedBits_iff, Ne, rsvField_eq_zero_iff]
  · rw [decode_eq_unassignedOp_iff, rsvField_eq_zero_iff, opField_toNat]

/-- Settles O1: the three words are the commands' encodings; of the others each fails one check. -/
theorem tableWordsDecode : Obligations.TableWordsDecode := by
  refine ⟨decode_encode .hash, decode_encode .verify, decode_encode .cmpeq, ?zero, ?four, ?last,
    ?reservedLow, ?reservedHigh⟩
  case zero => exact decode_eq_unassignedOp_iff.mpr (by decide)
  case four => exact decode_eq_unassignedOp_iff.mpr (by decide)
  case last => exact decode_eq_unassignedOp_iff.mpr (by decide)
  case reservedLow => exact decode_eq_reservedBits_iff.mpr (by decide)
  case reservedHigh => exact decode_eq_reservedBits_iff.mpr (by decide)

end Sys2Proof

namespace Sys2Proof.Machine

/-! ### The symbol tables (rules R75, R76) -/

section Alphabet

variable {v : Fin 62}

theorem alpha_toNat_of_digit (h : v.val < 10) : (alpha v).toNat = 0x30 + v.val := by
  rw [alpha, if_pos h, BitVec.toNat_ofNat]
  omega

theorem alpha_toNat_of_lower (hlow : 10 ≤ v.val) (hhigh : v.val < 36) :
    (alpha v).toNat = 0x61 + (v.val - 10) := by
  rw [alpha, if_neg (Nat.not_lt.mpr hlow), if_pos hhigh, BitVec.toNat_ofNat]
  omega

theorem alpha_toNat_of_upper (h : 36 ≤ v.val) : (alpha v).toNat = 0x41 + (v.val - 36) := by
  rw [alpha, if_neg (by omega), if_neg (Nat.not_lt.mpr h), BitVec.toNat_ofNat]
  omega

end Alphabet

section HexDigits

variable {v : BitVec 4}

theorem hexDigit_toNat_of_digit (h : v.toNat < 10) : (hexDigit v).toNat = 0x30 + v.toNat := by
  rw [hexDigit, if_pos h, BitVec.toNat_ofNat]
  omega

theorem hexDigit_toNat_of_letter (h : 10 ≤ v.toNat) :
    (hexDigit v).toNat = 0x61 + (v.toNat - 10) := by
  rw [hexDigit, if_neg (Nat.not_lt.mpr h), BitVec.toNat_ofNat]
  omega

end HexDigits

/-- Settles O4, range by range: no code of either table wraps at eight bits. -/
theorem symbolTables : Obligations.SymbolTables := by
  constructor
  · intro v
    exact ⟨fun h => alpha_toNat_of_digit (Nat.lt_succ_of_le h),
      fun ⟨hlow, hhigh⟩ => alpha_toNat_of_lower hlow (Nat.lt_succ_of_le hhigh),
      alpha_toNat_of_upper⟩
  · intro v
    exact ⟨fun h => hexDigit_toNat_of_digit (Nat.lt_succ_of_le h), hexDigit_toNat_of_letter⟩

end Sys2Proof.Machine

/-!
PROOFS. The hash core: its word operations, the padding, the schedule, the compression, the chain of
blocks and the hex text; the constants and the standard's example.
-/

namespace Sys2Proof.Machine

/-! ### The constants (rules R108, R109) -/

/-- The primes from 2 to 409. -/
def primeTable : List Nat := [
  2, 3, 5, 7, 11, 13, 17, 19, 23, 29, 31, 37, 41, 43, 47, 53, 59, 61, 67, 71,
  73, 79, 83, 89, 97, 101, 103, 107, 109, 113, 127, 131, 137, 139, 149, 151, 157, 163, 167, 173,
  179, 181, 191, 193, 197, 199, 211, 223, 227, 229, 233, 239, 241, 251, 257, 263, 269, 271, 277, 281,
  283, 293, 307, 311, 313, 317, 331, 337, 347, 349, 353, 359, 367, 373, 379, 383, 389, 397, 401, 409]

/-- Settles O6, entry by entry: the tables are fixed, and each root's integer part is searched for
below its bound. -/
theorem constantsFromPrimes : Obligations.ConstantsFromPrimes := by
  refine ⟨primeTable, ?primes, rfl, length_kTable, ?squareRoots, ?cubeRoots⟩
  case primes => decide +kernel
  case squareRoots => decide +kernel
  case cubeRoots => decide +kernel

/-! ### Words (rules R101 to R103) -/

theorem rotr_eq_rotateRight (x : Word) {n : Nat} (hn : n < 64) : rotr x n = x.rotateRight n :=
  (BitVec.rotateRight_eq_rotateRightAux_of_lt hn).symm

/-- Bit `i` of `ROTR(x, n)`, with the index wrapped at the width (rule R101). -/
theorem getLsbD_rotr (x : Word) {n i : Nat} (hn : n < 64) (hi : i < 64) :
    (rotr x n).getLsbD i = x.getLsbD ((i + n) % 64) := by
  rw [rotr_eq_rotateRight x hn, BitVec.getLsbD_rotateRight, Nat.mod_eq_of_lt hn]
  by_cases hlow : i < 64 - n
  · rw [decide_eq_true hlow, cond_true, Nat.mod_eq_of_lt (by omega), Nat.add_comm]
  · rw [decide_eq_false hlow, cond_false, decide_eq_true hi, Bool.true_and]
    congr 1
    omega

theorem shiftLeft_eq_ofNat_mul (x : Word) (k : Nat) :
    x <<< k = BitVec.ofNat 64 (x.toNat * 2 ^ k) :=
  BitVec.eq_of_toNat_eq (by
    rw [BitVec.toNat_shiftLeft, BitVec.toNat_ofNat, Nat.shiftLeft_eq])

theorem shr_toNat (x : Word) (n : Nat) : (shr x n).toNat = x.toNat / 2 ^ n := by
  rw [shr, BitVec.toNat_ushiftRight, Nat.shiftRight_eq_div_pow]

/-- Settles O5: `ROTR` is the library's rotation, and a left shift multiplies. -/
theorem wordOperations : Obligations.WordOperations := by
  intro x y n _ hn
  refine ⟨fun i hi => getLsbD_rotr x hn hi, ?_, shr_toNat x n, BitVec.toNat_add x y,
    BitVec.toNat_not⟩
  rw [rotr, shiftLeft_eq_ofNat_mul]

theorem getLsbD_ch (x y z : Word) (i : Nat) :
    (ch x y z).getLsbD i = if x.getLsbD i then y.getLsbD i else z.getLsbD i := by
  rw [ch, BitVec.getLsbD_xor, BitVec.getLsbD_and, BitVec.getLsbD_and, BitVec.getLsbD_not]
  by_cases hi : i < 64
  · cases x.getLsbD i <;> simp [hi]
  · simp [BitVec.getLsbD_of_ge _ _ (Nat.not_lt.mp hi)]

theorem getLsbD_maj (x y z : Word) (i : Nat) :
    (maj x y z).getLsbD i
      = ((x.getLsbD i && y.getLsbD i) ^^ (x.getLsbD i && z.getLsbD i)
          ^^ (y.getLsbD i && z.getLsbD i)) := by
  simp only [maj, BitVec.getLsbD_xor, BitVec.getLsbD_and]

/-- The exclusive or of the three pairwise products is the majority. -/
theorem xor_pairs_eq_true_iff (a b c : Bool) :
    ((a && b) ^^ (a && c) ^^ (b && c)) = true
      ↔ (a = true ∧ b = true) ∨ (a = true ∧ c = true) ∨ (b = true ∧ c = true) := by
  revert a b c
  decide

/-- Settles O7, bit by bit. -/
theorem chooseAndMajorityBits : Obligations.ChooseAndMajorityBits := by
  intro x y z i
  exact ⟨getLsbD_ch x y z i, by rw [getLsbD_maj, xor_pairs_eq_true_iff]⟩

/-! ### Padding (rule R110) -/

/-- The padded message before the length: the message, `0x80` and the zeros. -/
def padFront (m : Bytes) : Bytes := m ++ 0x80#8 :: List.replicate (padZeros m.length) 0x00#8

theorem pad_eq_padFront_append (m : Bytes) : pad m = padFront m ++ beBytes 16 (8 * m.length) := by
  simp [pad, padFront]

theorem length_padFront (m : Bytes) : (padFront m).length = m.length + 1 + padZeros m.length := by
  simp [padFront]
  omega

theorem padZeros_le {len z : Nat} (h : (len + 1 + z + 16) % 128 = 0) : padZeros len ≤ z := by
  have := padZeros_fills len
  have := padZeros_lt len
  omega

/-- Settles O8: the text up to the zeros is `padFront`, and what follows is the length field. -/
theorem paddingFillsBlocks : Obligations.PaddingFillsBlocks := by
  intro m
  refine ⟨padZeros m.length, padZeros_fills _, fun _ => padZeros_le, ?front, ?fieldLength, ?field,
    length_pad_blocks m, rfl⟩
  all_goals rw [pad_eq_padFront_append, ← length_padFront]
  case front => exact List.take_left
  case fieldLength => rw [List.drop_left, length_beBytes]
  case field => 
    rw [List.drop_left, beNat_beBytes]
    rfl

/-! ### The schedule (rule R112) -/

/-- A schedule word depends on earlier words alone. -/
theorem scheduleWord_congr {w w' : List Word} {t : Nat} (ht : 0 < t)
    (h : ∀ u, u < t → w.getD u 0 = w'.getD u 0) : scheduleWord w t = scheduleWord w' t := by
  simp only [scheduleWord, h _ (Nat.sub_lt ht (Nat.succ_pos _))]

/-- Every word that extending adds is the schedule word of the whole. -/
theorem getD_extendSchedule_new (n : Nat) :
    ∀ (w : List Word) (t : Nat), 0 < w.length → w.length ≤ t → t < w.length + n →
      (extendSchedule n w).getD t 0 = scheduleWord (extendSchedule n w) t := by
  induction n with
  | zero =>
    intro w t _ hge hlt
    omega
  | succ n ih =>
    intro w t hpos hge hlt
    have hlen : (w ++ [scheduleWord w w.length]).length = w.length + 1 := List.length_append
    rcases hge.eq_or_lt with rfl | hgt
    · have hold : ∀ u, u < w.length → w.getD u 0 = (extendSchedule (n + 1) w).getD u 0 :=
        fun u hu => (getD_extendSchedule_old (n + 1) w u hu).symm
      rw [← scheduleWord_congr hpos hold, extendSchedule,
        getD_extendSchedule_old n _ _ (by omega)]
      simp
    · exact ih _ t (by omega) (by omega) (by omega)

/-- Settles O9: extending keeps the sixteen words and adds each later one from the earlier. -/
theorem scheduleRecurrence : Obligations.ScheduleRecurrence := by
  intro m hm
  refine ⟨length_schedule hm, fun t ht => getD_extendSchedule_old 64 m t (by omega),
    fun t hge hle => ?_⟩
  exact getD_extendSchedule_new 64 m t (by omega) (by omega) (by omega)

/-! ### Compression (rules R113, R114) -/

/-- Settles O10: the run is `roundsUpTo`, the rounds of the compression up to a number. -/
theorem compressionRunsEightyRounds : Obligations.CompressionRunsEightyRounds := by
  intro hv m hm
  have hlen := length_schedule hm
  refine ⟨roundsUpTo hv (schedule m), rfl, fun t ht => ?round, ?final⟩
  case round => exact ⟨_, _, rfl, rfl, roundsUpTo_succ hv hlen ht⟩
  case final =>
    rw [roundsUpTo_all hv hlen]
    rfl

/-! ### The chain of blocks (rules R111, R115) -/

/-- Pieces of one length, joined: element `r` of piece `q`. -/
theorem getD_flatMap_of_length {α β : Type} {f : α → List β} {k : Nat}
    (hf : ∀ a, (f a).length = k) (a₀ : α) (b₀ : β) {l : List α} {q r : Nat}
    (hq : q < l.length) (hr : r < k) :
    (l.flatMap f).getD (k * q + r) b₀ = (f (l.getD q a₀)).getD r b₀ := by
  induction l generalizing q with
  | nil => exact absurd hq (Nat.not_lt_zero q)
  | cons a l ih =>
    have ha := hf a
    cases q with
    | zero =>
      rw [List.flatMap_cons, Nat.mul_zero, Nat.zero_add, List.getD_append _ _ _ _ (by omega),
        List.getD_cons_zero]
    | succ q =>
      rw [List.flatMap_cons, List.getD_append_right _ _ _ _ (by rw [ha, Nat.mul_succ]; omega),
        List.getD_cons_succ, ← ih (Nat.lt_of_succ_lt_succ hq), ha]
      congr 1
      rw [Nat.mul_succ]
      omega

theorem getD_block (padded : Bytes) (j : Nat) {i : Nat} (hi : i < 128) :
    (block padded j).getD i 0 = padded.getD (128 * j + i) 0 := by
  simp only [block, List.getD, List.getElem?_take_of_lt hi, List.getElem?_drop]

theorem length_block {padded : Bytes} {j : Nat} (hj : j < padded.length / 128) :
    (block padded j).length = 128 := by
  rw [block, List.length_take, List.length_drop]
  omega

/-- Word `r` of a block, as the sum of its eight bytes (rules R54, R111). -/
theorem getD_blockWords_toNat {b : Bytes} (hb : b.length = 128) {r : Nat} (hr : r < 16) :
    ((blockWords b).getD r 0).toNat
      = ((List.range 8).map fun q => (b.getD (8 * r + q) 0).toNat * 2 ^ (8 * (7 - q))).sum := by
  have hlen : ((b.drop (8 * r)).take 8).length = 8 := by
    rw [List.length_take, List.length_drop]
    omega
  have hfits : beNat ((b.drop (8 * r)).take 8) < 2 ^ 64 :=
    (beNat_lt _).trans_eq (by rw [hlen]; rfl)
  have hword : (blockWords b).getD r 0 = BitVec.ofNat 64 (beNat ((b.drop (8 * r)).take 8)) := by
    simp [blockWords, List.getD, hr]
  rw [hword, BitVec.toNat_ofNat, Nat.mod_eq_of_lt hfits, beNat_eq_sum, hlen]
  refine congrArg List.sum (List.map_congr_left fun q hq => ?_)
  simp only [List.getD, List.getElem?_take_of_lt (List.mem_range.mp hq), List.getElem?_drop]

/-- Byte `8 p + q` of `BE8(H[0]) || ... || BE8(H[7])` is byte `q` of word `p` (rule R115). -/
theorem getD_toBytes (x : Octet) {p q : Nat} (hp : p < 8) (hq : q < 8) :
    x.toBytes.getD (8 * p + q) 0
      = ([x.a, x.b, x.c, x.d, x.e, x.f, x.g, x.h].getD p 0).extractLsb' (56 - 8 * q) 8 := by
  have hp' : p < [x.a, x.b, x.c, x.d, x.e, x.f, x.g, x.h].length := hp
  rw [← getD_beBytes _ hq]
  exact getD_flatMap_of_length (fun w : Word => length_beBytes 8 w.toNat) 0 0 hp' hq

theorem sha512_eq_hashUpTo (m : Bytes) :
    sha512 m = (hashUpTo m ((pad m).length / 128)).toBytes := by
  rw [length_pad_blocks, Nat.mul_div_cancel_left _ (by decide)]
  rfl

/-- Settles O11: the chaining values are `hashUpTo`, the chain over the first blocks. -/
theorem hashChainsBlocks : Obligations.HashChainsBlocks := by
  intro m
  refine ⟨hashUpTo m, fun j => blockWords (block (pad m) j), rfl, fun j _ => hashUpTo_succ m j,
    fun j => length_blockWords _, fun j r hj hr => ?word, length_toBytes _, fun p q hp hq => ?byte⟩
  case word =>
    rw [getD_blockWords_toNat (length_block hj) hr]
    refine congrArg List.sum (List.map_congr_left fun q hq => ?_)
    have := List.mem_range.mp hq
    rw [getD_block _ _ (by omega)]
  case byte => rw [sha512_eq_hashUpTo, getD_toBytes _ hp hq]

/-- Settles O12: one block, so one compression, which the kernel evaluates. -/
theorem hashOfAbc : Obligations.HashOfAbc := by
  unfold Obligations.HashOfAbc
  decide +kernel

/-! ### The hex text (rule R117) -/

/-- Settles O13: `HexEnc` joins pieces of two digits, one piece for each byte. -/
theorem hexEncodesNibbles : Obligations.HexEncodesNibbles := by
  intro d
  refine ⟨length_hexEnc d, fun q hq => ?_, fun _ => hexEnc_isHexText⟩
  have hpair := fun r => getD_flatMap_of_length (k := 2) (r := r)
    (f := fun b : Byte => [hexDigit (b.extractLsb' 4 4), hexDigit (b.extractLsb' 0 4)])
    (fun _ => rfl) 0 0 hq
  exact ⟨hpair 0 (by decide), hpair 1 (by decide)⟩

end Sys2Proof.Machine

/-!
PROOFS. The step counts of the walks (rules R140, R250), from those of their stages.
-/

namespace Sys2Proof.Machine

/-- In `ps` there are `d` draws, `h` applications of SHA-512, `c` compressions of 80 rounds each, and
`n` positions `S_CMP(i)`, the test that leaves the loop among them. -/
structure HasCounts (ps : List Pos) (d h c n : Nat) : Prop where
  draws : countDraws ps = d
  hashes : countHashes ps = h
  compressions : countCompressions ps = c
  rounds : countRounds ps = 80 * c
  compares : ps.countP Pos.isCompare = n

theorem HasCounts.append {ps qs : List Pos} {d h c n d' h' c' n' : Nat}
    (hps : HasCounts ps d h c n) (hqs : HasCounts qs d' h' c' n') :
    HasCounts (ps ++ qs) (d + d') (h + h') (c + c') (n + n') where
  draws := List.countP_append.trans (congrArg₂ _ hps.draws hqs.draws)
  hashes := List.countP_append.trans (congrArg₂ _ hps.hashes hqs.hashes)
  compressions := List.countP_append.trans (congrArg₂ _ hps.compressions hqs.compressions)
  rounds := (List.countP_append.trans (congrArg₂ _ hps.rounds hqs.rounds)).trans
    (Nat.mul_add 80 c c').symm
  compares := List.countP_append.trans (congrArg₂ _ hps.compares hqs.compares)

/-- The comparisons are the `S_CMP(i)` but the last (rule R162). -/
theorem HasCounts.comparisons {ps : List Pos} {d h c n : Nat} (hps : HasCounts ps d h c n) :
    countComparisons ps = n - 1 := by rw [countComparisons, hps.compares]

/-! ### The stages -/

theorem hasCounts_nil : HasCounts [] 0 0 0 0 := ⟨rfl, rfl, rfl, rfl, rfl⟩

theorem hasCounts_check : HasCounts [.check] 0 0 0 0 := ⟨rfl, rfl, rfl, rfl, rfl⟩

theorem hasCounts_done : HasCounts [.done] 0 0 0 0 := ⟨rfl, rfl, rfl, rfl, rfl⟩

theorem hasCounts_hex (k : Nat) : HasCounts [.hex k] 0 1 0 0 := ⟨rfl, rfl, rfl, rfl, rfl⟩

theorem hasCounts_salt : HasCounts ((List.range Config.saltLen).map .salt) 21 0 0 0 :=
  ⟨rfl, rfl, rfl, rfl, rfl⟩

theorem hasCounts_block (k blk : Nat) :
    HasCounts ((List.range 80).map fun t => .iter k blk t) 0 0 1 0 :=
  ⟨rfl, rfl, rfl, rfl, rfl⟩

theorem hasCounts_walkBlocks (k n : Nat) : HasCounts (walkBlocks k n) 0 0 n 0 := by
  induction n with
  | zero => exact hasCounts_nil
  | succ n ih =>
    rw [walkBlocks_succ]
    exact ih.append (hasCounts_block k n)

/-- One iteration more than `j`: the first message has its own blocks, each later one has two
(rules R133, R140). -/
theorem hasCounts_walkIterations_succ (len j : Nat) :
    HasCounts (walkIterations len (j + 1)) 0 (j + 1) (blockCount len + 2 * j) 0 := by
  induction j with
  | zero =>
    have h := (hasCounts_walkBlocks 1 (blockCount len)).append (hasCounts_hex 1)
    rw [Nat.zero_add] at h
    rw [walkIterations_succ]
    exact h
  | succ j ih =>
    rw [walkIterations_succ, if_neg (Nat.succ_ne_zero j)]
    exact ih.append ((hasCounts_walkBlocks _ _).append (hasCounts_hex _))

theorem hasCounts_walkStretch (len : Nat) :
    HasCounts (walkStretch len) 0 20 (blockCount len + 38) 0 :=
  hasCounts_walkIterations_succ len 19

theorem hasCounts_walkCompare (n : Nat) : HasCounts (walkCompare n) 0 0 0 (n + 1) := by
  induction n with
  | zero => exact ⟨rfl, rfl, rfl, rfl, rfl⟩
  | succ n ih =>
    rw [walkCompare, List.range_succ, List.map_append]
    exact ih.append (qs := [.cmp (n + 1)]) ⟨rfl, rfl, rfl, rfl, rfl⟩

/-! ### The walks -/

theorem hasCounts_walk_hash (slen dlen : Nat) :
    HasCounts (walk .hash slen dlen) 21 20 (blockCount (slen + Config.saltLen) + 38) 0 := by
  have h := ((hasCounts_check.append hasCounts_salt).append
    (hasCounts_walkStretch (slen + Config.saltLen))).append hasCounts_done
  simpa only [walk, Nat.zero_add, Nat.add_zero] using h

theorem hasCounts_walk_verify (slen dlen : Nat) :
    HasCounts (walk .verify slen dlen) 0 20 (blockCount (slen + min Config.saltLen dlen) + 38)
      (min Config.storedLen dlen + 1) := by
  have h := ((hasCounts_check.append (hasCounts_walkStretch (slen + min Config.saltLen dlen))).append
    (hasCounts_walkCompare (min Config.storedLen dlen))).append hasCounts_done
  simpa only [walk, Nat.zero_add, Nat.add_zero] using h

theorem hasCounts_walk_cmpeq (slen dlen : Nat) :
    HasCounts (walk .cmpeq slen dlen) 0 0 0 (min slen dlen + 1) := by
  have h := (hasCounts_check.append (hasCounts_walkCompare (min slen dlen))).append hasCounts_done
  simpa only [walk, Nat.zero_add, Nat.add_zero] using h

/-- Settles O48: the counts of each walk are the sums over its stages. -/
theorem stepCountsOfCommands : Obligations.StepCountsOfCommands := by
  intro slen dlen
  have hhash := hasCounts_walk_hash slen dlen
  have hverify := hasCounts_walk_verify slen dlen
  have hcmpeq := hasCounts_walk_cmpeq slen dlen
  exact
    ⟨⟨hhash.draws, hhash.hashes, hhash.compressions, hhash.rounds, hhash.comparisons⟩,
      ⟨hverify.draws, hverify.hashes, hverify.compressions, hverify.rounds, hverify.comparisons⟩,
      hcmpeq.draws, hcmpeq.hashes, hcmpeq.compressions, hcmpeq.rounds, hcmpeq.comparisons⟩

end Sys2Proof.Machine

/-!
PROOFS. The stretch and HASH: the chain of hex digests, the 149 bytes that a HASH without error
leaves, its errors, its requests to the entropy device, and the round trip through VERIFY.
-/

namespace Sys2Proof.Machine

/-! ### The stretch (rules R132, R133) -/

theorem rehash_isHexText {n : Nat} (hn : 0 < n) {digest : Bytes} {b : Byte}
    (hb : b ∈ rehash n digest) : IsHexText b := by
  obtain ⟨k, rfl⟩ := Nat.exists_eq_succ_of_ne_zero hn.ne'
  rw [rehash_succ] at hb
  exact hexEnc_isHexText hb

/-- Settles O14: digest `k` is the text after `k` applications. -/
theorem stretchChainsTwentyHashes : Obligations.StretchChainsTwentyHashes := by
  intro secret salt
  exact ⟨fun k => rehash k (secret ++ salt), rehash_succ 0 _, fun k _ _ => rehash_succ k _,
    fun k hpos _ => ⟨length_rehash hpos _, fun _ => rehash_isHexText hpos⟩, rfl⟩

/-! ### A HASH without error (rule R135) -/

section Completes

variable {s : State} {v : Nat → Fin 62}

/-- `DIG[0:149]` holds the salt and the digest; the rest is as it was. -/
theorem read_hashCompletion (h : s.Legal) (hfits : secTooLong s = false) (hv : s.drawsSalt v)
    (off : Nat) :
    (hashCompletion s).dig.read off =
      if off < 149 then (saltOf v ++ stretch (secretOf s) (saltOf v)).getD off 0
      else s.dig.read off := by
  rw [hashCompletion_symbols hfits hv, read_finishHash (h.afterDraws 21).digCanonical,
    length_salt_stretch, afterDraws_dig]

theorem read_hashCompletion_salt (h : s.Legal) (hfits : secTooLong s = false)
    (hv : s.drawsSalt v) {i : Nat} (hi : i < 21) :
    (hashCompletion s).dig.read i = alpha (v i) := by
  rw [read_hashCompletion h hfits hv, if_pos (by omega),
    List.getD_append _ _ _ _ (by rwa [length_saltOf]), getD_saltOf v hi]

/-- The salt read back from `DIG[0:21]`. -/
theorem map_read_hashCompletion_salt (h : s.Legal) (hfits : secTooLong s = false)
    (hv : s.drawsSalt v) : (List.range 21).map (hashCompletion s).dig.read = saltOf v :=
  List.map_congr_left fun _ hi => read_hashCompletion_salt h hfits hv (List.mem_range.1 hi)

theorem read_hashCompletion_digest (h : s.Legal) (hfits : secTooLong s = false)
    (hv : s.drawsSalt v) {i : Nat} (hi : i < 128) :
    (hashCompletion s).dig.read (21 + i) = (stretch (secretOf s) (saltOf v)).getD i 0 := by
  rw [read_hashCompletion h hfits hv, if_pos (by omega),
    List.getD_append_right _ _ _ _ (by rw [length_saltOf]; omega), length_saltOf,
    Nat.add_sub_cancel_left]

theorem hashCompletion_dlen (hfits : secTooLong s = false) (hv : s.drawsSalt v) :
    (hashCompletion s).dlen = 149 := by
  rw [hashCompletion_symbols hfits hv]
  rfl

theorem hashCompletion_results (hfits : secTooLong s = false) (hv : s.drawsSalt v) :
    (hashCompletion s).status = okStatus false ∧ (hashCompletion s).cmpcnt = 0 := by
  rw [hashCompletion_symbols hfits hv]
  exact ⟨finishHash_status _ _ _, finishHash_cmpcnt _ _ _⟩

end Completes

/-- Settles O17: the bytes of `DIG` by range, then the results and what every HASH leaves. -/
theorem hashCompletes : Obligations.HashCompletes := by
  intro s v h hfits hv
  obtain ⟨hphase, _, _, _, hsecMax, hdigMax, _⟩ := completion_frame .hash s
  obtain ⟨hstatus, hcmpcnt⟩ := hashCompletion_results hfits hv
  obtain ⟨hsec, hslen⟩ := hashCompletion_secret s
  refine ⟨_, exec_eq .hash s, fun i => read_hashCompletion_salt h hfits hv, fun i hi => ?digest,
    fun off => hashCompletion_read_beyond h, hashCompletion_dlen hfits hv, hstatus, ?noMatch,
    hcmpcnt, fun off => ?zeroised, hslen, hphase, hsecMax, hdigMax⟩
  all_goals rw [completion]
  case digest =>
    rw [map_read_hashCompletion_salt h hfits hv, read_hashCompletion_digest h hfits hv hi]
  case noMatch => rw [hstatus, matchBit_okStatus]
  case zeroised => rw [hsec, read_zeros]

/-! ### A HASH in error (rules R136, R206) -/

/-- The error of a HASH that does not complete: the length's when the secret is too long, else the
failed draw's. -/
theorem hashCompletion_error {s : State}
    (h : (∃ m, secTooLong s = false ∧ s.drawsFailAt m) ∨ secTooLong s = true) :
    ∃ e n, hashCompletion s = hashError e (afterDraws n s)
      ∧ (secTooLong s = false → e = .entropyFailure) ∧ (secTooLong s = true → e = .lengthError) := by
  rcases h with ⟨m, hfits, hm⟩ | hlong
  · exact ⟨_, _, hashCompletion_fails hfits hm, fun _ => rfl, by simp [hfits]⟩
  · exact ⟨_, 0, hashCompletion_long hlong, by simp [hlong], fun _ => rfl⟩

/-- Settles O18: both errors end in `hashError`, each with its own code. -/
theorem hashErrorLeavesNoDigest : Obligations.HashErrorLeavesNoDigest := by
  intro s h
  obtain ⟨e, n, heq, hdraw, hlength⟩ := hashCompletion_error h
  refine ⟨hashError e (afterDraws n s), (exec_eq .hash s).trans (congrArg _ heq), fun hfits => ?_,
    fun hlong => ?_, rfl, rfl, rfl, read_zeros, rfl, rfl, rfl, rfl⟩
  · rw [hdraw hfits]
    rfl
  · rw [hlength hlong]
    rfl

/-- Settles O19: the three ways HASH ends, by the number of requests before each. -/
theorem hashTakesItsDraws : Obligations.HashTakesItsDraws := by
  intro s
  obtain ⟨_, _, hinputs, hreplies, _, _, hstream⟩ := completion_frame .hash s
  refine ⟨_, exec_eq .hash s, hinputs, hreplies, hstream, fun hlong => ?long,
    fun v hfits hv => ?symbols, fun m hfits hm => ?fails⟩
  all_goals rw [completion]
  case long =>
    rw [hashCompletion_long hlong]
    exact ⟨rfl, rfl⟩
  case symbols =>
    rw [hashCompletion_symbols hfits hv]
    exact ⟨rfl, rfl⟩
  case fails =>
    rw [hashCompletion_fails hfits hm]
    exact ⟨rfl, rfl⟩

/-! ### The round trip (rule R137) -/

theorem extractSalt_append {salt : Bytes} (h : salt.length = 21) (digest : Bytes) :
    extractSalt (salt ++ digest) = salt :=
  List.take_left' h

/-- A stored string built from a salt is its own reconstruction (rule R151). -/
theorem reconstruct_salt_stretch (secret : Bytes) {salt : Bytes} (h : salt.length = 21) :
    reconstruct secret (salt ++ stretch secret salt) = salt ++ stretch secret salt := by
  rw [reconstruct, extractSalt_append h]

/-- A string no longer than a stored digest fits in every `DIG` that rule R5 allows. -/
theorem exceededBy_of_okForDig {c : Capacity} (h : c.okForDig) {len : Word}
    (hlen : len.toNat ≤ 149) : c.exceededBy len = false := by
  cases c with
  | unbounded => rfl
  | bounded n => exact decide_eq_false (Nat.not_lt.2 (hlen.trans h))

/-- A context that holds the 149 bytes HASH left has the salt and its stretch as stored string. -/
theorem storedOf_of_hashCompletion {s u : State} {v : Nat → Fin 62} (h : s.Legal)
    (hfits : secTooLong s = false) (hv : s.drawsSalt v) (hdlen : u.dlen = 149)
    (hdig : ∀ i, i < 149 → u.dig.read i = (hashCompletion s).dig.read i) :
    storedOf u = saltOf v ++ stretch (secretOf s) (saltOf v) := by
  have hlen : u.dlen.toNat = 149 := congrArg BitVec.toNat hdlen
  refine bytes_ext (by rw [length_storedOf, hlen, length_salt_stretch]) fun i hi => ?_
  rw [length_storedOf] at hi
  rw [getD_storedOf u hi, hdig i (hlen ▸ hi), read_hashCompletion h hfits hv, if_pos (hlen ▸ hi)]

/-- VERIFY of a stored string that is its own reconstruction (rule R153). -/
theorem verifyCompletion_matches {s : State} (hfits : eitherTooLong s = false)
    (h : reconstruct (secretOf s) (storedOf s) = storedOf s) :
    verifyCompletion s = finishVerify true (min 149 s.dlen.toNat) s := by
  rw [verifyCompletion_compares hfits, decide_eq_true h]

/-- Settles O27: what HASH left is the salt and its stretch, which reconstructs to itself. -/
theorem hashThenVerifyMatches : Obligations.HashThenVerifyMatches := by
  intro s v h hfits hv
  refine ⟨_, exec_eq .hash s, fun u hslen hsec hdlen hdig hsecMax hdigMax => ?_⟩
  replace hdlen : u.dlen = 149 := hdlen.trans (hashCompletion_dlen hfits hv)
  have huFits : eitherTooLong u = false := by
    rw [eitherTooLong, secTooLong_congr hslen hsecMax, hfits, digTooLong, hdigMax, hdlen]
    exact exceededBy_of_okForDig h.digCapacity (le_refl 149)
  have hmatch : reconstruct (secretOf u) (storedOf u) = storedOf u := by
    rw [secretOf_congr hslen hsec, storedOf_of_hashCompletion h hfits hv hdlen hdig,
      reconstruct_salt_stretch _ (length_saltOf v)]
  refine ⟨_, exec_eq .verify u, ?_⟩
  rw [completion, verifyCompletion_matches huFits hmatch, hdlen]
  exact ⟨rfl, rfl⟩

end Sys2Proof.Machine

/-!
PROOFS. VERIFY: what makes a stored string its own reconstruction, the outcome by its length, the
strings that are rejected, and what the count, the error and the walk have from the lengths alone.
-/

namespace Sys2Proof.Machine

/-! ### The length check (rule R204) -/

theorem eitherTooLong_eq_false {s : State} (hsec : secTooLong s = false)
    (hdig : digTooLong s = false) : eitherTooLong s = false := by
  rw [eitherTooLong, hsec, hdig, Bool.or_false]

theorem eitherTooLong_congr {s u : State} (hslen : u.slen = s.slen) (hdlen : u.dlen = s.dlen)
    (hsecMax : u.secMax = s.secMax) (hdigMax : u.digMax = s.digMax) :
    eitherTooLong u = eitherTooLong s := by
  rw [eitherTooLong, eitherTooLong, secTooLong_congr hslen hsecMax, digTooLong_congr hdlen hdigMax]

/-! ### Strings that are their own reconstruction (rules R151, R152) -/

/-- The salts agree by construction, so only the hex parts count (rule R154). -/
theorem reconstruct_eq_self_iff (secret stored : Bytes) :
    reconstruct secret stored = stored ↔
      stored.drop 21 = stretch secret (extractSalt stored) := by
  have hsplit : extractSalt stored ++ stored.drop 21 = stored := List.take_append_drop 21 stored
  calc reconstruct secret stored = stored
      ↔ extractSalt stored ++ stretch secret (extractSalt stored)
          = extractSalt stored ++ stored.drop 21 := by rw [hsplit, reconstruct]
    _ ↔ stored.drop 21 = stretch secret (extractSalt stored) := by
        rw [List.append_right_inj, eq_comm]

/-- Only a string of 149 bytes has a hex part as long as a stretch. -/
theorem length_of_reconstruct_eq_self {secret stored : Bytes}
    (h : reconstruct secret stored = stored) : stored.length = 149 := by
  have hlen := congrArg List.length h
  rw [length_reconstruct] at hlen
  omega

/-! ### The stored string in `DIG` (rule R150) -/

theorem extractSalt_storedOf (s : State) :
    extractSalt (storedOf s) = (List.range (min 21 s.dlen.toNat)).map s.dig.read := by
  simp only [extractSalt, storedOf, memRead, Memory.readBytes, ← List.map_take, List.take_range,
    Nat.zero_add, State.buffer, Config.saltLen]

theorem getD_drop_storedOf (s : State) {i : Nat} (h : 21 + i < s.dlen.toNat) :
    ((storedOf s).drop 21).getD i 0 = s.dig.read (21 + i) := by
  rw [← getD_storedOf s h, List.getD, List.getElem?_drop, ← List.getD]

/-- The stored string and the secret of the context verify: the string is 149 bytes long, the last
128 being the stretch with the first 21 (rule R154). -/
theorem reconstruct_storedOf_iff (s : State) :
    reconstruct (secretOf s) (storedOf s) = storedOf s ↔
      s.dlen.toNat = 149 ∧ ∀ i, i < 128 →
        s.dig.read (21 + i) = (stretch (secretOf s) ((List.range 21).map s.dig.read)).getD i 0 := by
  have hsalt (hlen : s.dlen.toNat = 149) :
      extractSalt (storedOf s) = (List.range 21).map s.dig.read := by
    rw [extractSalt_storedOf, hlen]
    rfl
  constructor
  · intro h
    have hlen : s.dlen.toNat = 149 :=
      (length_storedOf s).symm.trans (length_of_reconstruct_eq_self h)
    refine ⟨hlen, fun i hi => ?_⟩
    rw [← getD_drop_storedOf s (by omega), (reconstruct_eq_self_iff _ _).1 h, hsalt hlen]
  · rintro ⟨hlen, hhex⟩
    rw [reconstruct_eq_self_iff, hsalt hlen]
    refine bytes_ext (by rw [List.length_drop, length_storedOf, hlen, length_stretch])
      fun i hi => ?_
    rw [List.length_drop, length_storedOf] at hi
    rw [getD_drop_storedOf s (by omega), hhex i (by omega)]

/-- Two stored strings that verify for one secret and have one salt are the same string. -/
theorem dig_read_eq_of_reconstruct {s u : State} (hsecret : secretOf u = secretOf s)
    (hs : reconstruct (secretOf s) (storedOf s) = storedOf s)
    (hu : reconstruct (secretOf u) (storedOf u) = storedOf u)
    (hsalt : ∀ i, i < 21 → u.dig.read i = s.dig.read i) {i : Nat} (hi : i < 149) :
    u.dig.read i = s.dig.read i := by
  obtain ⟨_, hsHex⟩ := (reconstruct_storedOf_iff s).1 hs
  obtain ⟨_, huHex⟩ := (reconstruct_storedOf_iff u).1 hu
  have hsalts : (List.range 21).map u.dig.read = (List.range 21).map s.dig.read :=
    List.map_congr_left fun j hj => hsalt j (List.mem_range.1 hj)
  by_cases hlt : i < 21
  · exact hsalt i hlt
  · obtain ⟨j, rfl⟩ := Nat.exists_eq_add_of_le (Nat.not_lt.1 hlt)
    rw [huHex j (by omega), hsHex j (by omega), hsecret, hsalts]

/-! ### The outcome of a VERIFY (rules R153, R154) -/

/-- VERIFY of a stored string that is not its own reconstruction (rule R153). -/
theorem verifyCompletion_rejects {s : State} (hfits : eitherTooLong s = false)
    (h : reconstruct (secretOf s) (storedOf s) ≠ storedOf s) :
    verifyCompletion s = finishVerify false (min 149 s.dlen.toNat) s := by
  rw [verifyCompletion_compares hfits, decide_eq_false h]

/-- `MATCH` is set only where both lengths fit and the string is its own reconstruction. -/
theorem matchBit_verifyCompletion {s : State} :
    matchBit (verifyCompletion s).status = true ↔
      eitherTooLong s = false ∧ reconstruct (secretOf s) (storedOf s) = storedOf s := by
  cases hlong : eitherTooLong s
  · rw [verifyCompletion_compares hlong, finishVerify_status, matchBit_okStatus, decide_eq_true_iff,
      and_iff_right rfl]
  · rw [verifyCompletion_long hlong, verifyError_status, matchBit_errorStatus]
    simp

theorem verifyCompletion_cmpcnt {s : State} (hfits : eitherTooLong s = false) :
    (verifyCompletion s).cmpcnt = BitVec.ofNat 64 (min 149 s.dlen.toNat) := by
  rw [verifyCompletion_compares hfits, finishVerify_cmpcnt]

/-- Settles O20: the two ways a comparison ends, then what VERIFY clears and what it leaves. -/
theorem verifyCompletes : Obligations.VerifyCompletes := by
  intro s hsec hdig
  have hfits := eitherTooLong_eq_false hsec hdig
  obtain ⟨hsecret, hslen⟩ := verifyCompletion_secret s
  obtain ⟨hphase, _, _, _, hsecMax, hdigMax, _⟩ := completion_frame .verify s
  obtain ⟨hdigest, hdlen, hworld⟩ := completion_leaves_stored (i := .verify) nofun s
  refine ⟨_, exec_eq .verify s, fun hmatch => ?accepts, fun hdiffer => ?rejects,
    verifyCompletion_cmpcnt hfits, fun off => ?zeroised, hslen, hphase, hdigest, hdlen, hsecMax,
    hdigMax, hworld⟩
  all_goals rw [completion]
  case accepts =>
    rw [verifyCompletion_matches hfits hmatch]
    rfl
  case rejects =>
    rw [verifyCompletion_rejects hfits hdiffer]
    rfl
  case zeroised => rw [hsecret, read_zeros]

/-- A stored string of another length than 149 is rejected. -/
theorem verifyCompletion_status_of_length {s : State} (hfits : eitherTooLong s = false)
    (hlen : s.dlen.toNat ≠ 149) : (verifyCompletion s).status = 0x01 := by
  have hdiffer : reconstruct (secretOf s) (storedOf s) ≠ storedOf s :=
    fun h => hlen ((reconstruct_storedOf_iff s).1 h).1
  rw [verifyCompletion_rejects hfits hdiffer]
  rfl

/-- From 149 bytes on, the reconstructed string is the shorter one. -/
theorem verifyCompletion_cmpcnt_of_ge {s : State} (hfits : eitherTooLong s = false)
    (hlen : 149 ≤ s.dlen.toNat) : (verifyCompletion s).cmpcnt = 149 := by
  rw [verifyCompletion_cmpcnt hfits, min_eq_left hlen]
  rfl

/-- Below 149 bytes, the stored string is the shorter one. -/
theorem verifyCompletion_cmpcnt_of_lt {s : State} (hfits : eitherTooLong s = false)
    (hlen : s.dlen.toNat < 149) : (verifyCompletion s).cmpcnt = s.dlen := by
  rw [verifyCompletion_cmpcnt hfits, min_eq_right hlen.le, BitVec.ofNat_toNat, BitVec.setWidth_eq]

/-- Settles O21: `MATCH` by `reconstruct_storedOf_iff`, then the count and the status by range. -/
theorem verifyOutcomeByLength : Obligations.VerifyOutcomeByLength := by
  intro s hsec hdig
  have hfits := eitherTooLong_eq_false hsec hdig
  refine ⟨_, exec_eq .verify s, ?accepts,
    fun hlt => ⟨verifyCompletion_cmpcnt_of_lt hfits hlt,
      verifyCompletion_status_of_length hfits hlt.ne⟩,
    fun heq => verifyCompletion_cmpcnt_of_ge hfits heq.ge,
    fun hgt => ⟨verifyCompletion_cmpcnt_of_ge hfits hgt.le,
      verifyCompletion_status_of_length hfits hgt.ne'⟩,
    extractSalt_storedOf s, by rw [length_reconstruct, length_storedOf]⟩
  rw [completion, matchBit_verifyCompletion, and_iff_right hfits, reconstruct_storedOf_iff]

/-- Settles O28: a string that still verified would be the old one, or as long as the old one. -/
theorem verifyRejectsChangedDigest : Obligations.VerifyRejectsChangedDigest := by
  intro s t u ht hmatch hslen hsec hsecMax hdig hchanged
  obtain rfl : completion .verify s = t := Host.Outcome.next.inj ((exec_eq .verify s).symm.trans ht)
  obtain ⟨hfits, hs⟩ := matchBit_verifyCompletion.1 hmatch
  have huFits : eitherTooLong u = false := by
    refine eitherTooLong_eq_false ?_ hdig
    rw [secTooLong_congr hslen hsecMax]
    exact (Bool.or_eq_false_iff.1 hfits).1
  have hdiffer : reconstruct (secretOf u) (storedOf u) ≠ storedOf u := by
    intro hu
    rcases hchanged with ⟨_, hsalt, i, _, hi, hne⟩ | hdlen
    · exact hne (dig_read_eq_of_reconstruct (secretOf_congr hslen hsec) hs hu hsalt hi)
    · have hulen149 := ((reconstruct_storedOf_iff u).1 hu).1
      have hslen149 := ((reconstruct_storedOf_iff s).1 hs).1
      exact hdlen (BitVec.eq_of_toNat_eq (hulen149.trans hslen149.symm))
  refine ⟨_, exec_eq .verify u, ?_⟩
  rw [completion, verifyCompletion_rejects huFits hdiffer]
  rfl

/-! ### Counts and errors from the lengths alone (rules R155, R163, R166) -/

/-- How many bytes VERIFY and CMPEQ compare when both lengths fit; HASH compares none. -/
def comparedBytes (i : Instr) (slen dlen : Nat) : Nat :=
  match i with
  | .hash => 0
  | .verify => min 149 dlen
  | .cmpeq => min slen dlen

theorem completion_long {i : Instr} (hi : i ≠ .hash) {s : State} (hlong : eitherTooLong s = true) :
    (completion i s).cmpcnt = 0 ∧ errField (completion i s).status = ErrorCode.lengthError.code := by
  match i, hi with
  | .verify, _ =>
    rw [completion, verifyCompletion_long hlong]
    exact ⟨rfl, errField_errorStatus _⟩
  | .cmpeq, _ =>
    rw [completion, cmpeqCompletion_long hlong]
    exact ⟨rfl, errField_errorStatus _⟩

theorem completion_compares {i : Instr} (hi : i ≠ .hash) {s : State}
    (hfits : eitherTooLong s = false) :
    (completion i s).cmpcnt = BitVec.ofNat 64 (comparedBytes i s.slen.toNat s.dlen.toNat)
      ∧ errField (completion i s).status = 0 := by
  match i, hi with
  | .verify, _ =>
    rw [completion, verifyCompletion_compares hfits]
    exact ⟨rfl, errField_okStatus _⟩
  | .cmpeq, _ =>
    rw [completion, cmpeqCompletion_compares hfits]
    exact ⟨rfl, errField_okStatus _⟩

/-- Settles O30: with the same lengths and capacities both contexts compare, or both end in the
length error. -/
theorem countIgnoresContents : Obligations.CountIgnoresContents := by
  intro s u i hi hslen hdlen hsecMax hdigMax
  obtain ⟨_, hsDone, _⟩ := completion_frame i s
  obtain ⟨_, huDone, _⟩ := completion_frame i u
  have hsame := eitherTooLong_congr hslen hdlen hsecMax hdigMax
  suffices h : (completion i u).cmpcnt = (completion i s).cmpcnt
      ∧ errField (completion i u).status = errField (completion i s).status from
    ⟨_, _, exec_eq i s, exec_eq i u, h.1, h.2, huDone, hsDone⟩
  cases hlong : eitherTooLong s
  · obtain ⟨hscnt, hserr⟩ := completion_compares hi hlong
    obtain ⟨hucnt, huerr⟩ := completion_compares hi (hsame.trans hlong)
    rw [hscnt, hserr, hucnt, huerr, hslen, hdlen]
    exact ⟨rfl, rfl⟩
  · obtain ⟨hscnt, hserr⟩ := completion_long hi hlong
    obtain ⟨hucnt, huerr⟩ := completion_long hi (hsame.trans hlong)
    exact ⟨hucnt.trans hscnt.symm, huerr.trans hserr.symm⟩

/-! ### The walk from the lengths alone (rules R155, R162, R251) -/

/-- A command that ends in no error visits the walk of its lengths. -/
theorem walks_of_no_error {i : Instr} {s : State} (hr : Running i s) (hsec : secTooLong s = false)
    (hdig : i ≠ .hash → digTooLong s = false) {v : Nat → Fin 62} (hv : i = .hash → s.drawsSalt v) :
    Walks (walk i s.slen.toNat s.dlen.toNat) (seqStart s) (completion i s) := by
  cases i with
  | hash => exact walks_hash hr hsec (hv rfl)
  | verify => exact walks_verify hr (eitherTooLong_eq_false hsec (hdig nofun))
  | cmpeq => exact walks_cmpeq hr (eitherTooLong_eq_false hsec (hdig nofun))

/-- Settles O47: the walk ends in phase IDLE, where the trace ends with it. -/
theorem walkDependsOnLengthsAlone : Obligations.WalkDependsOnLengthsAlone := by
  intro s i n v hphase hlatch hsec hdig hv hn
  exact ((walks_of_no_error ⟨hphase, hlatch⟩ hsec hdig hv).complete (completion_frame i s).1 hn).2

end Sys2Proof.Machine

/-!
PROOFS. The comparator: what `SlowEquals` answers and counts, and the CMPEQ that runs it.
-/

namespace Sys2Proof.Machine

/-! ### `SlowEquals` (rules R163, R165) -/

/-- The count is a function of the two lengths alone (rule R163). -/
theorem slowEquals_snd (a b : Bytes) : (slowEquals a b).2 = min a.length b.length :=
  (slowLoop_count a b (lengthDiff a b) 0).trans (Nat.zero_add _)

/-- The whole result of a comparison whose lengths fit in 64 bits. -/
theorem slowEquals_eq {a b : Bytes} (ha : a.length < 2 ^ 64) (hb : b.length < 2 ^ 64) :
    slowEquals a b = (decide (a = b), min a.length b.length) :=
  Prod.ext (slowEquals_fst ha hb) (slowEquals_snd a b)

theorem slowEquals_comm {a b : Bytes} (ha : a.length < 2 ^ 64) (hb : b.length < 2 ^ 64) :
    slowEquals a b = slowEquals b a := by
  rw [slowEquals_eq ha hb, slowEquals_eq hb ha, min_comm, decide_eq_decide.2 (eq_comm (a := a))]

/-- Settles O15: the general law, then the model run on each corner case. -/
theorem slowEqualsDecidesEquality : Obligations.SlowEqualsDecidesEquality := by
  refine ⟨fun a b ha hb => ⟨?_, slowEquals_comm ha hb⟩, by decide, by decide, by decide, by decide,
    by decide⟩
  rw [slowEquals_fst ha hb, decide_eq_true_iff]

/-! ### `CMPCNT` (rule R163) -/

/-- No command compares as many bytes as would overflow `CMPCNT`. -/
theorem toNat_cmpcnt_of_fits {i : Instr} (hi : i ≠ .hash) {s : State}
    (hfits : eitherTooLong s = false) :
    (completion i s).cmpcnt.toNat = comparedBytes i s.slen.toNat s.dlen.toNat := by
  rw [(completion_compares hi hfits).1, BitVec.toNat_ofNat]
  apply Nat.mod_eq_of_lt
  match i, hi with
  | .verify, _ => exact min_lt_of_right_lt s.dlen.isLt
  | .cmpeq, _ => exact min_lt_of_right_lt s.dlen.isLt

theorem slowEquals_operands_snd (s : State) :
    (slowEquals (secretOf s) (storedOf s)).2 = comparedBytes .cmpeq s.slen.toNat s.dlen.toNat := by
  rw [slowEquals_snd, length_secretOf, length_storedOf, comparedBytes]

/-- A stored string of less than 21 bytes, all of them salt, is still the shorter one. -/
theorem slowEquals_reconstruct_snd (s : State) :
    (slowEquals (reconstruct (secretOf s) (storedOf s)) (storedOf s)).2 =
      comparedBytes .verify s.slen.toNat s.dlen.toNat := by
  rw [slowEquals_snd, length_reconstruct, length_storedOf, comparedBytes]
  omega

/-- Settles O16: both commands count what their comparison counts, and the count fits `CMPCNT`. -/
theorem slowEqualsCountsMinLength : Obligations.SlowEqualsCountsMinLength := by
  refine ⟨fun a b => ⟨slowEquals_snd a b, fun a' b' ha hb => ?_⟩, fun s hsec hdig => ?_⟩
  · rw [slowEquals_snd, slowEquals_snd, ha, hb]
  · have hfits := eitherTooLong_eq_false hsec hdig
    exact ⟨⟨_, exec_eq .cmpeq s,
        (toNat_cmpcnt_of_fits (i := .cmpeq) nofun hfits).trans
          (slowEquals_operands_snd s).symm⟩,
      _, exec_eq .verify s,
      (toNat_cmpcnt_of_fits (i := .verify) nofun hfits).trans
        (slowEquals_reconstruct_snd s).symm⟩

/-! ### CMPEQ (rule R164) -/

/-- The operands are equal as rule R9 says it, in the registers and the buffers. -/
theorem secretOf_eq_storedOf_iff (s : State) :
    secretOf s = storedOf s ↔
      s.slen = s.dlen ∧ ∀ i, i < s.slen.toNat → s.sec.read i = s.dig.read i := by
  constructor
  · intro h
    have hlen : s.slen = s.dlen :=
      BitVec.eq_of_toNat_eq (by rw [← length_secretOf, h, length_storedOf])
    refine ⟨hlen, fun i hi => ?_⟩
    rw [← getD_secretOf s hi, h, getD_storedOf s (hlen ▸ hi)]
  · rintro ⟨hlen, hbytes⟩
    refine bytes_ext (by rw [length_secretOf, length_storedOf, hlen]) fun i hi => ?_
    rw [length_secretOf] at hi
    rw [getD_secretOf s hi, getD_storedOf s (hlen ▸ hi), hbytes i hi]

theorem cmpeqCompletion_matches {s : State} (hfits : eitherTooLong s = false)
    (h : secretOf s = storedOf s) :
    cmpeqCompletion s = finishCmpeq true (min s.slen.toNat s.dlen.toNat) s := by
  rw [cmpeqCompletion_compares hfits, decide_eq_true h]

theorem cmpeqCompletion_rejects {s : State} (hfits : eitherTooLong s = false)
    (h : secretOf s ≠ storedOf s) :
    cmpeqCompletion s = finishCmpeq false (min s.slen.toNat s.dlen.toNat) s := by
  rw [cmpeqCompletion_compares hfits, decide_eq_false h]

/-- Settles O22: the two ways a comparison ends, the count, then what CMPEQ leaves. -/
theorem cmpeqCompletes : Obligations.CmpeqCompletes := by
  intro s hsec hdig
  have hfits := eitherTooLong_eq_false hsec hdig
  obtain ⟨hsecret, hslen⟩ := cmpeqCompletion_secret s
  obtain ⟨hphase, _, _, _, hsecMax, hdigMax, _⟩ := completion_frame .cmpeq s
  obtain ⟨hdigest, hdlen, hworld⟩ := completion_leaves_stored (i := .cmpeq) nofun s
  obtain ⟨hcount, _⟩ := completion_compares (i := .cmpeq) nofun hfits
  refine ⟨_, exec_eq .cmpeq s, fun hmatch => ?accepts, fun hdiffer => ?rejects, hcount, hsecret,
    hslen, hdigest, hdlen, hphase, hsecMax, hdigMax, hworld⟩
  all_goals rw [completion]
  case accepts =>
    rw [cmpeqCompletion_matches hfits ((secretOf_eq_storedOf_iff s).2 hmatch)]
    rfl
  case rejects =>
    rw [cmpeqCompletion_rejects hfits fun h => hdiffer ((secretOf_eq_storedOf_iff s).1 h)]
    rfl

end Sys2Proof.Machine

/-!
PROOFS. The host's accesses around a command: the command that a step in phase RUN completes, the
port operation that waits meanwhile, and the registers by number.
-/

namespace Sys2Proof.Machine

/-! ### The latched word's completion (rules R184, R185) -/

/-- A latched word, legal or not, completes with `DONE` set and answers nothing; what it does is the
same whatever the host will do next (rule R186). -/
theorem completeLatched_frame (s : State) :
    ∃ t, completeLatched s = .next t ∧ t.phase = .idle ∧ doneBit t.status = true
      ∧ t.inputs = s.inputs ∧ t.replies = s.replies
      ∧ ∀ l, completeLatched { s with inputs := l } = .next { t with inputs := l } := by
  rcases completeLatched_cases s with ⟨i, hword, h⟩ | ⟨⟨why, hword⟩, h⟩
  · obtain ⟨hphase, hdone, hinputs, hreplies, _⟩ := completion_frame i s
    refine ⟨_, h, hphase, hdone, hinputs, hreplies, fun l => ?_⟩
    rw [completeLatched, hword, ← completion_inputs]
    exact exec_eq i _
  · refine ⟨_, h, rfl, doneBit_errorStatus .illegalCommand, rfl, rfl, fun l => ?_⟩
    rw [completeLatched, hword]
    rfl

/-- In phase RUN, with no reset striking, a word that spells a command runs it. -/
theorem step_command {s : State} {i : Instr} (hrun : s.phase = .run)
    (hr : resetPending s = false) (hword : decode s.cmdlatch = .command i) :
    step s = exec i (passWait s) := by
  rw [step_run hrun hr, completeLatched, passWait_cmdlatch, hword]

/-- No reset strikes a command that has just been placed (log 12). -/
theorem resetPending_issueNow (w : Word) (s : State) : resetPending (issueNow w s) = false := by
  cases hr : resetPending s with
  | true => rw [issueNow, if_pos hr, resetPending]
  | false => rwa [issueNow, if_neg (hr ▸ Bool.false_ne_true)]

theorem withFetchWord_toNat (s : State) (w : Word) :
    s.withFetchWord 64 w.toNat = issueNow w s := by
  rw [State.withFetchWord, Nat.mod_eq_of_lt w.isLt, BitVec.ofNat_toNat, BitVec.setWidth_eq]

/-- Settles O31: a placed command is one of those the first part speaks of. -/
theorem stepRunsLatchedCommand : Obligations.StepRunsLatchedCommand := by
  refine ⟨fun s i _ => step_command, fun s i => ?_⟩
  rw [withFetchWord_toNat]
  exact step_command rfl (resetPending_issueNow _ s) (decode_encode i)

/-! ### The operation that waits, and the read that follows (rules R180, R186) -/

section PortStep

variable {s : State} {op : PortOp} {rest : List Input}

/-- A port operation that waits neither strikes nor passes. -/
theorem step_run_port (hrun : s.phase = .run) (hin : s.inputs = .port op :: rest) :
    step s = completeLatched s := by
  rw [step_run hrun (by simp only [resetPending, hin]), passWait, hin]

theorem step_run_silent (hrun : s.phase = .run) :
    step { s with inputs := [] } = completeLatched { s with inputs := [] } :=
  step_run hrun rfl

/-- Consuming the script leaves the registers. -/
theorem readReg_withInputs (n : Nat) (s : State) (l : List Input) :
    readReg n { s with inputs := l } = readReg n s := by
  unfold readReg
  rfl

theorem step_rdr {n : Nat} (hidle : s.phase = .idle) (hin : s.inputs = .port (.rdr n) :: rest) :
    step s = .next { s with
      inputs := rest, replies := s.replies ++ [.word (readReg n s)] } := by
  rw [step_port hidle hin, portOp, readReg_withInputs, reply]

end PortStep

/-- Settles O34: both scripts let the same completion pass, and the operation then moves in phase
IDLE. -/
theorem portOperationHeld : Obligations.PortOperationHeld := by
  intro s op rest hrun hin
  obtain ⟨t, hstep, hphase, _, hinputs, hreplies, hscript⟩ := completeLatched_frame s
  exact ⟨t, { t with inputs := [] }, (step_run_port hrun hin).trans hstep,
    (step_run_silent hrun).trans (hscript []), hphase, hinputs, hreplies, rfl, rfl, rfl,
    step_port hphase (hinputs.trans hin)⟩

/-- Settles O35: the write issues, the word completes while the read waits, the read moves. -/
theorem firstReadSeesCompletion : Obligations.FirstReadSeesCompletion := by
  intro s w rest hidle hin
  obtain ⟨t, hstep, hphase, hdone, hinputs, hreplies, _⟩ :=
    completeLatched_frame
      { s with cmdlatch := w, phase := .run, inputs := .port (.rdr 1) :: rest }
  exact ⟨_, t, _, step_port hidle hin, (step_run_port rfl rfl).trans hstep,
    step_rdr hphase hinputs, hphase, hdone, rfl, rfl,
    congrArg (· ++ [Reply.word t.status]) hreplies⟩

/-! ### The registers by number (rules R180, R181) -/

/-- Both forms of what register 7 or 8 shows (rules R29, R30). -/
theorem toNat_shown (c : Capacity) :
    (∀ n, c = .bounded n → c.shown.toNat = min n (2 ^ 64 - 1))
      ∧ (c = .unbounded → c.shown.toNat = 2 ^ 64 - 1) := by
  constructor
  · rintro n rfl
    exact toNat_shown_bounded n
  · rintro rfl
    exact toNat_shown_unbounded

/-- Settles O36, register by register. -/
theorem readRegister : Obligations.ReadRegister := by
  intro s n rest hidle hin
  refine ⟨_, readReg n s, step_rdr hidle hin, rfl, ?cmd, ?status, ?slen,
    ?dlen, ?cmpcnt, ?saltLen, ?stretches, ?secMax, ?digMax, fun hn => readReg_of_nine_le hn _⟩
  case secMax =>
    rintro rfl
    exact toNat_shown s.secMax
  case digMax =>
    rintro rfl
    exact toNat_shown s.digMax
  all_goals
    rintro rfl
    rfl

/-- Of the registers only `CMD`, `SLEN` and `DLEN` take a write (rule R31). -/
theorem writeReg_ignored {n : Nat} (h : n = 1 ∨ 4 ≤ n) (v : Word) (s : State) :
    writeReg n v s = s := by
  rcases h with rfl | h
  · rfl
  · obtain ⟨k, rfl⟩ := Nat.exists_eq_add_of_le' h
    rfl

/-- Settles O37, register by register. -/
theorem writeRegister : Obligations.WriteRegister := by
  intro s n v rest hidle hin
  refine ⟨_, step_port hidle hin, ?cmd, ?slen, ?dlen, fun hn => writeReg_ignored hn v _⟩
  all_goals
    rintro rfl
    rfl

end Sys2Proof.Machine

/-!
PROOFS. The exceptions: the length check of each command, the illegal word and the waiting context;
contexts side by side.
-/

namespace Sys2Proof.Machine

/-! ### A length beyond its capacity (rule R204) -/

theorem exceededBy_iff {c : Capacity} {len : Word} :
    c.exceededBy len = true ↔ ∃ n, c = .bounded n ∧ n < len.toNat := by
  cases c with
  | bounded n => simp [Capacity.exceededBy]
  | unbounded => simp [Capacity.exceededBy]

/-- The length check that a command makes: HASH of `SLEN`, VERIFY and CMPEQ of both lengths. -/
def lengthRefused (i : Instr) (s : State) : Bool :=
  match i with
  | .hash => secTooLong s
  | .verify | .cmpeq => eitherTooLong s

theorem lengthRefused_iff {i : Instr} {s : State} :
    lengthRefused i s = true ↔ secTooLong s = true ∨ (digTooLong s = true ∧ i ≠ .hash) := by
  cases i with
  | hash => simp [lengthRefused]
  | verify => simp [lengthRefused, eitherTooLong]
  | cmpeq => simp [lengthRefused, eitherTooLong]

/-- What the three commands have in common when the length check fails. -/
theorem completion_of_lengthRefused {i : Instr} {s : State} (h : lengthRefused i s = true) :
    (completion i s).status = errorStatus .lengthError ∧ (completion i s).cmpcnt = 0
      ∧ (completion i s).dig = s.dig ∧ (completion i s).world = s.world := by
  cases i with
  | hash =>
    rw [completion, hashCompletion_long h]
    exact ⟨rfl, rfl, rfl, rfl⟩
  | verify =>
    rw [completion, verifyCompletion_long h]
    exact ⟨rfl, rfl, rfl, rfl⟩
  | cmpeq =>
    rw [completion, cmpeqCompletion_long h]
    exact ⟨rfl, rfl, rfl, rfl⟩

/-- A HASH whose secret fits fails only on a draw, and that has another code (rules R136, R201). -/
theorem errField_hashCompletion_of_fits {s : State} (h : secTooLong s = false) :
    errField (hashCompletion s).status ≠ 3 := by
  rcases draws_cases s with ⟨v, hv⟩ | ⟨m, hm⟩
  · rw [hashCompletion_symbols h hv, finishHash_status, errField_okStatus]
    decide
  · rw [hashCompletion_fails h hm, hashError_status, errField_errorStatus]
    decide

theorem errField_completion_of_fits {i : Instr} {s : State} (h : lengthRefused i s = false) :
    errField (completion i s).status ≠ 3 := by
  cases i with
  | hash => exact errField_hashCompletion_of_fits h
  | verify =>
    rw [(completion_compares (i := .verify) nofun h).2]
    decide
  | cmpeq =>
    rw [(completion_compares (i := .cmpeq) nofun h).2]
    decide

/-- Settles O23: the check of each command decides between code 3, with the command's own clearing,
and the other codes. -/
theorem lengthErrorCompletes : Obligations.LengthErrorCompletes := by
  intro s i
  rw [← lengthRefused_iff, Bool.not_eq_true]
  refine ⟨exceededBy_iff, exceededBy_iff, fun h => ?refused,
    fun h => ⟨_, exec_eq i s, errField_completion_of_fits h⟩⟩
  obtain ⟨hstatus, hcmpcnt, hdig, hworld⟩ := completion_of_lengthRefused h
  obtain ⟨hphase, _, _, _, hsecMax, hdigMax, _⟩ := completion_frame i s
  refine ⟨_, exec_eq i s, hstatus, hcmpcnt, hphase, ?dlenCleared, ?dlenKept, ?secretCleared,
    ?secretKept, hdig, hsecMax, hdigMax, hworld⟩
  case dlenCleared =>
    rintro rfl
    rw [completion, hashCompletion_long h, hashError_dlen]
  case dlenKept =>
    intro hi
    obtain ⟨_, hdlen, _⟩ := completion_leaves_stored hi s
    exact hdlen
  case secretCleared =>
    intro hi
    obtain ⟨hsec, hslen⟩ := completion_zeroises hi s
    exact ⟨fun off => by rw [hsec, read_zeros], hslen⟩
  case secretKept =>
    rintro rfl
    exact cmpeqCompletion_secret s

/-! ### The illegal word (rule R203) -/

/-- A wait that passes takes a move of the script and nothing else. -/
theorem passWait_eq_withInputs (s : State) : ∃ l, passWait s = { s with inputs := l } := by
  rcases passWait_cases s with h | ⟨rest, _, h⟩
  · exact ⟨s.inputs, h⟩
  · exact ⟨rest, h⟩

/-- Settles O24: the step raises the illegal command on the state whose wait has passed. -/
theorem illegalWordCompletes : Obligations.IllegalWordCompletes := by
  intro s why hrun hr hword
  have hstep := step_illegal hrun hr hword
  obtain ⟨l, hwait⟩ := passWait_eq_withInputs s
  rw [hwait] at hstep
  exact ⟨_, hstep, rfl, rfl, rfl, rfl, rfl, rfl, rfl, rfl, rfl, rfl, rfl, rfl⟩

/-! ### The context that waits (rule R215) -/

theorem outsideMove_silent {s : State} (h : s.inputs = []) : outsideMove s = s := by
  simp only [outsideMove, h]

theorem outsideMove_wait {s : State} {rest : List Input} (h : s.inputs = .wait :: rest) :
    outsideMove s = { s with inputs := rest } := by
  simp only [outsideMove, h]

/-- Settles O40: in phase IDLE the outside world moves, and here it has no move or a wait. -/
theorem idleContextWaits : Obligations.IdleContextWaits := by
  intro s hidle
  rw [step_idle hidle]
  exact ⟨fun hin => by rw [outsideMove_silent hin],
    fun rest hin => by rw [outsideMove_wait hin]⟩

/-! ### Contexts side by side (rules R214, R240) -/

section Contexts

variable {cs : System} {k : Nat} {c c' : State}

theorem systemStep_of_no_reset (hc : cs[k]? = some c) (hstep : step c = .next c')
    (hr : resetPending c = false) : System.step k cs = .next (cs.set k c') := by
  simp only [System.step, hc, hstep, hr]
  rfl

theorem systemStep_of_reset (hc : cs[k]? = some c) (hstep : step c = .next c')
    (hr : resetPending c = true) :
    System.step k cs = .next ((cs.map resetEvent).set k c') := by
  simp only [System.step, hc, hstep, hr]
  rfl

end Contexts

/-- Settles O49: context `k` is replaced in the list as it was, or in the list of reset contexts. -/
theorem contextsIndependent : Obligations.ContextsIndependent := by
  intro cs k c c' hc hstep
  obtain ⟨hk, _⟩ := List.getElem?_eq_some_iff.1 hc
  cases hr : resetPending c with
  | false =>
    exact ⟨_, systemStep_of_no_reset hc hstep hr, List.length_set, List.getElem?_set_self hk,
      fun _ j hj => List.getElem?_set_ne hj.symm, nofun⟩
  | true =>
    refine ⟨_, systemStep_of_reset hc hstep hr, List.length_set.trans (List.length_map _),
      List.getElem?_set_self (hk.trans_eq (List.length_map _).symm), nofun, fun _ j d hj hd => ?_⟩
    rw [List.getElem?_set_ne hj.symm, List.getElem?_map, hd, Option.map_some]

end Sys2Proof.Machine

/-!
PROOFS. A reset that strikes, in either phase: the values it leaves and the entropy it loses.
-/

namespace Sys2Proof.Machine

theorem outsideMove_reset {s : State} {rest : List Input} (h : s.inputs = .reset :: rest) :
    outsideMove s = resetEvent { s with inputs := rest } := by
  simp only [outsideMove, h]

/-- A reset strikes at once, in phase RUN as in phase IDLE (rules R240, R241). -/
theorem step_resetEvent {s : State} {rest : List Input} (h : s.inputs = .reset :: rest) :
    step s = .next (resetEvent { s with inputs := rest }) := by
  rw [step_reset (by simp only [resetPending, h]), outsideMove_reset h]

/-- What a reset takes from the entropy device: the requests that a running HASH had made, at most
its 21 (rule R241). -/
theorem resetEvent_draws_cases (s : State) :
    ∃ n, n ≤ 21 ∧ (resetEvent s).entropy = s.entropy.drop n ∧ (resetEvent s).draws = s.draws + n
      ∧ (s.phase = .idle ∨ decode s.cmdlatch ≠ .command .hash → n = 0) := by
  obtain ⟨n, hn, hlost, hnone⟩ := abandonDraws_cases s
  refine ⟨n, hn, ?_, ?_, hnone⟩
  · rw [resetEvent_entropy, hlost, afterDraws_entropy]
  · rw [resetEvent_draws, hlost, afterDraws_draws]

/-- Settles O43: the step is the reset event, whose values stand in its definition; the entropy
lost is what the abandoned command had drawn. -/
theorem resetAbandonsCommand : Obligations.ResetAbandonsCommand := by
  intro s rest hin
  exact ⟨_, step_resetEvent hin, rfl, rfl, rfl, rfl, read_nil, read_nil, rfl, rfl, rfl, rfl, rfl,
    rfl, resetEvent_draws_cases { s with inputs := rest }⟩

end Sys2Proof.Machine
